-- ==== Sys2Proof/Config.lean ====
section
/-! DEFINITION. The implementation parameters of the engine (00_scope.md R6 to R9) and the three reference
configurations of R9. Every value of the parameters is a configuration: nothing here is fixed to one of them. -/

namespace Sys2Proof

/-- The configuration record that every rule reads and no command changes (00_scope.md, section 2). -/
structure Cfg where
  /-- width in bits of one limb (R6) -/
  W : Nat
  /-- capacity in bits (R7) -/
  N : Nat
  /-- number of bitmap registers (R8) -/
  R : Nat
  /-- width in bits of an index operand (R9) -/
  IW : Nat
  deriving DecidableEq, Repr

/-- The word count, `ceil(N / W)` (R7). -/
abbrev Cfg.L (c : Cfg) : Nat := (c.N + c.W - 1) / c.W

/-- The number of padding bits, `L*W - N` (R7). -/
abbrev Cfg.P (c : Cfg) : Nat := c.L * c.W - c.N

/-- The constraints R6 to R9 put on the parameters (log 13). -/
abbrev Cfg.Legal (c : Cfg) : Prop :=
  0 < c.W ∧ 0 < c.N ∧ 1 ≤ c.R ∧ c.R ≤ 16 ∧ c.N < 2 ^ c.IW

/-- CFG-A of R9: two limbs of 64 bits, no padding. The configuration of `Machine.State.reset` (DESIGN CHOICE, log 1). -/
def cfgA : Cfg := ⟨64, 128, 8, 32⟩

/-- CFG-B of R9: three limbs of 8 bits, four padding bits. -/
def cfgB : Cfg := ⟨8, 20, 8, 32⟩

/-- CFG-C of R9: sixteen limbs of 64 bits. -/
def cfgC : Cfg := ⟨64, 1024, 8, 32⟩

end Sys2Proof
end

