-- ==== Sys2Proof/Word.lean ====
section
/-! DEFINITION. The word types: one limb, one bitmap (an ordered sequence of limbs), a register index. -/

namespace Sys2Proof

/-- One limb: an unsigned word of `W` bits, bit offset 0 the least significant (00_scope.md R12). -/
abbrev Limb (c : Cfg) := BitVec c.W

/-- One bitmap value: exactly `L` limbs, array index 0 (the most significant word) first
(10_state.md R20, 20_memory.md R41). -/
abbrev Bitmap (c : Cfg) := Vector (Limb c) c.L

/-- A register field of the command word: four bits (30_encoding.md R61). -/
abbrev RegIdx := BitVec 4

end Sys2Proof
end

