-- ==== Sys2Proof/Syntax.lean ====
section
/-! DEFINITION. The command set "FBLE command set 1" (30_encoding.md R70): one constructor per row of the opcode table,
carrying the fields of the command word that the row uses. The operand ports (`opa`, `opb`, `opw`, `opv`) travel beside
the command word (R60) and are read from the packet when the command runs: a decoder needs only `cw` (R60, R76). -/

namespace Sys2Proof

/-- The 25 commands; `rd` destination, `ra`, `rb` sources, `v` the boolean value (R61). -/
inductive Instr where
  /-- R100 -/
  | zero (rd : RegIdx)
  /-- R101 -/
  | full (rd : RegIdx)
  /-- R102 -/
  | new (rd : RegIdx) (v : Bool)
  /-- R103; reads `opv` -/
  | ldv (rd : RegIdx)
  /-- R104; reads `opa` -/
  | frombit (rd : RegIdx)
  /-- R105 -/
  | copy (rd ra : RegIdx)
  /-- R106 -/
  | rdv (ra : RegIdx)
  /-- R120; reads `opa` -/
  | get (ra : RegIdx)
  /-- R121; reads `opa` -/
  | set (rd : RegIdx) (v : Bool)
  /-- R130; reads `opa`, `opb` -/
  | mask (rd : RegIdx) (v : Bool)
  /-- R133; reads `opa`, `opb` -/
  | setrange (rd : RegIdx) (v : Bool)
  /-- R141 -/
  | and (rd ra rb : RegIdx)
  /-- R142 -/
  | or (rd ra rb : RegIdx)
  /-- R143 -/
  | xor (rd ra rb : RegIdx)
  /-- R144 -/
  | not (rd ra : RegIdx)
  /-- R145 -/
  | anda (rd rb : RegIdx)
  /-- R146 -/
  | ora (rd rb : RegIdx)
  /-- R147 -/
  | xora (rd rb : RegIdx)
  /-- R148 -/
  | nota (rd : RegIdx)
  /-- R163; reads `opw` -/
  | add (rd ra : RegIdx)
  /-- R164; reads `opw` -/
  | adda (rd : RegIdx)
  /-- R170 -/
  | eq (ra rb : RegIdx)
  /-- R171 -/
  | cmp (ra rb : RegIdx)
  /-- R180 -/
  | rdst
  /-- R181 -/
  | clrst
  deriving DecidableEq, Repr

end Sys2Proof
end

