-- ==== Sys2Proof/WellFormed.lean ====
section
/-! DEFINITION. Well-formedness of a command: every register field it uses names a register the engine has
(30_encoding.md R75, condition 4; 10_state.md R22). -/

namespace Sys2Proof

/-- The register exists in an engine of `R` registers. -/
def RegIdx.present (R : Nat) (r : RegIdx) : Bool := decide (r.toNat < R)

/-- Every register field the command uses is below `R` (R75, condition 4). -/
def Instr.wellFormed (R : Nat) : Instr → Bool
  | .zero rd => rd.present R
  | .full rd => rd.present R
  | .new rd _ => rd.present R
  | .ldv rd => rd.present R
  | .frombit rd => rd.present R
  | .copy rd ra => rd.present R && ra.present R
  | .rdv ra => ra.present R
  | .get ra => ra.present R
  | .set rd _ => rd.present R
  | .mask rd _ => rd.present R
  | .setrange rd _ => rd.present R
  | .and rd ra rb => rd.present R && ra.present R && rb.present R
  | .or rd ra rb => rd.present R && ra.present R && rb.present R
  | .xor rd ra rb => rd.present R && ra.present R && rb.present R
  | .not rd ra => rd.present R && ra.present R
  | .anda rd rb => rd.present R && rb.present R
  | .ora rd rb => rd.present R && rb.present R
  | .xora rd rb => rd.present R && rb.present R
  | .nota rd => rd.present R
  | .add rd ra => rd.present R && ra.present R
  | .adda rd => rd.present R
  | .eq ra rb => ra.present R && rb.present R
  | .cmp ra rb => ra.present R && rb.present R
  | .rdst => true
  | .clrst => true

end Sys2Proof
end

