-- ==== Sys2Proof/Decode.lean ====
section
/-! DEFINITION. The command word (30_encoding.md R61), the opcode map (R70), the decoder with the illegal words rejected
by name (R75), and after it the encoder. Decoding is a pure function of `cw` and `R` (R76). -/

namespace Sys2Proof

/-! ## The fields of a command word (R61) -/

/-- `cw[7:0]`. -/
def opcodeOf (cw : BitVec 32) : BitVec 8 := cw.extractLsb' 0 8
/-- `cw[11:8]`. -/
def rdOf (cw : BitVec 32) : RegIdx := cw.extractLsb' 8 4
/-- `cw[15:12]`. -/
def raOf (cw : BitVec 32) : RegIdx := cw.extractLsb' 12 4
/-- `cw[19:16]`. -/
def rbOf (cw : BitVec 32) : RegIdx := cw.extractLsb' 16 4
/-- `cw[20]`. -/
def vOf (cw : BitVec 32) : Bool := cw.getLsbD 20
/-- `cw[31:21]`, which must be 0. -/
def reservedOf (cw : BitVec 32) : BitVec 11 := cw.extractLsb' 21 11

/-! ## Which fields a command uses (R70, column "fields") -/

/-- The destination register of a command that has one. -/
def Instr.rd? : Instr → Option RegIdx
  | .zero rd | .full rd | .new rd _ | .ldv rd | .frombit rd | .copy rd _ => some rd
  | .set rd _ | .mask rd _ | .setrange rd _ => some rd
  | .and rd _ _ | .or rd _ _ | .xor rd _ _ | .not rd _ => some rd
  | .anda rd _ | .ora rd _ | .xora rd _ | .nota rd => some rd
  | .add rd _ | .adda rd => some rd
  | .rdv _ | .get _ | .eq _ _ | .cmp _ _ | .rdst | .clrst => none

/-- The first source register of a command that has one. -/
def Instr.ra? : Instr → Option RegIdx
  | .copy _ ra | .rdv ra | .get ra => some ra
  | .and _ ra _ | .or _ ra _ | .xor _ ra _ | .not _ ra => some ra
  | .add _ ra | .eq ra _ | .cmp ra _ => some ra
  | .zero _ | .full _ | .new _ _ | .ldv _ | .frombit _ | .set _ _ | .mask _ _ | .setrange _ _ => none
  | .anda _ _ | .ora _ _ | .xora _ _ | .nota _ | .adda _ | .rdst | .clrst => none

/-- The second source register of a command that has one. -/
def Instr.rb? : Instr → Option RegIdx
  | .and _ _ rb | .or _ _ rb | .xor _ _ rb => some rb
  | .anda _ rb | .ora _ rb | .xora _ rb | .eq _ rb | .cmp _ rb => some rb
  | .zero _ | .full _ | .new _ _ | .ldv _ | .frombit _ | .copy _ _ | .rdv _ | .get _ => none
  | .set _ _ | .mask _ _ | .setrange _ _ | .not _ _ | .nota _ | .add _ _ | .adda _ | .rdst | .clrst => none

/-- The boolean value of a command that has one. -/
def Instr.v? : Instr → Option Bool
  | .new _ v | .set _ v | .mask _ v | .setrange _ v => some v
  | .zero _ | .full _ | .ldv _ | .frombit _ | .copy _ _ | .rdv _ | .get _ => none
  | .and _ _ _ | .or _ _ _ | .xor _ _ _ | .not _ _ => none
  | .anda _ _ | .ora _ _ | .xora _ _ | .nota _ | .add _ _ | .adda _ => none
  | .eq _ _ | .cmp _ _ | .rdst | .clrst => none

/-! ## Which operand parts a command reads (R70, column "ports") -/

/-- The operand parts of a packet beside the command word (R60). -/
inductive Part where
  | opa
  | opb
  | opw
  | opv
  deriving DecidableEq, Repr

/-- The parts the command reads; every other part may hold anything (R63). -/
def Instr.ports : Instr → List Part
  | .ldv _ => [.opv]
  | .frombit _ | .get _ | .set _ _ => [.opa]
  | .mask _ _ | .setrange _ _ => [.opa, .opb]
  | .add _ _ | .adda _ => [.opw]
  | .zero _ | .full _ | .new _ _ | .copy _ _ | .rdv _ => []
  | .and _ _ _ | .or _ _ _ | .xor _ _ _ | .not _ _ | .anda _ _ | .ora _ _ | .xora _ _ | .nota _ => []
  | .eq _ _ | .cmp _ _ | .rdst | .clrst => []

/-! ## The decoder -/

/-- Why a command word is illegal: the four conditions of R75, in its order. They give one status code (R210). -/
inductive Illegal where
  /-- the opcode is none of the 25 (condition 1) -/
  | reservedOpcode
  /-- one of bits 31:21 is 1 (condition 2) -/
  | reservedBits
  /-- a field the command does not use is not 0 (condition 3) -/
  | unusedField
  /-- a register field the command uses is `R` or more (condition 4) -/
  | absentRegister
  deriving DecidableEq, Repr

/-- The command an opcode names, built from the fields it uses (R70); none for the 231 reserved opcodes. -/
def commandOf (op : BitVec 8) (rd ra rb : RegIdx) (v : Bool) : Option Instr :=
  match op.toNat with
  | 0x10 => some (.zero rd)
  | 0x11 => some (.full rd)
  | 0x12 => some (.new rd v)
  | 0x13 => some (.ldv rd)
  | 0x14 => some (.frombit rd)
  | 0x15 => some (.copy rd ra)
  | 0x16 => some (.rdv ra)
  | 0x20 => some (.get ra)
  | 0x21 => some (.set rd v)
  | 0x30 => some (.mask rd v)
  | 0x31 => some (.setrange rd v)
  | 0x40 => some (.and rd ra rb)
  | 0x41 => some (.or rd ra rb)
  | 0x42 => some (.xor rd ra rb)
  | 0x43 => some (.not rd ra)
  | 0x48 => some (.anda rd rb)
  | 0x49 => some (.ora rd rb)
  | 0x4A => some (.xora rd rb)
  | 0x4B => some (.nota rd)
  | 0x50 => some (.add rd ra)
  | 0x58 => some (.adda rd)
  | 0x60 => some (.eq ra rb)
  | 0x61 => some (.cmp ra rb)
  | 0x70 => some .rdst
  | 0x71 => some .clrst
  | _ => none

/-- Every field the command does not use is 0 in the word (R61). -/
def unusedFieldsZero (cw : BitVec 32) (i : Instr) : Bool :=
  (i.rd?.isSome || rdOf cw == 0) && (i.ra?.isSome || raOf cw == 0) &&
  (i.rb?.isSome || rbOf cw == 0) && (i.v?.isSome || !vOf cw)

/-- The decoder: every 32-bit word is either one of the 25 commands or illegal, by name (R75, R76). -/
def decode (R : Nat) (cw : BitVec 32) : Except Illegal Instr :=
  match commandOf (opcodeOf cw) (rdOf cw) (raOf cw) (rbOf cw) (vOf cw) with
  | none => .error .reservedOpcode
  | some i =>
    if reservedOf cw ≠ 0 then .error .reservedBits
    else if !unusedFieldsZero cw i then .error .unusedField
    else if !i.wellFormed R then .error .absentRegister
    else .ok i

/-! ## The encoder -/

/-- The opcode byte of a command (R70). -/
def Instr.opcode : Instr → BitVec 8
  | .zero _ => 0x10
  | .full _ => 0x11
  | .new _ _ => 0x12
  | .ldv _ => 0x13
  | .frombit _ => 0x14
  | .copy _ _ => 0x15
  | .rdv _ => 0x16
  | .get _ => 0x20
  | .set _ _ => 0x21
  | .mask _ _ => 0x30
  | .setrange _ _ => 0x31
  | .and _ _ _ => 0x40
  | .or _ _ _ => 0x41
  | .xor _ _ _ => 0x42
  | .not _ _ => 0x43
  | .anda _ _ => 0x48
  | .ora _ _ => 0x49
  | .xora _ _ => 0x4A
  | .nota _ => 0x4B
  | .add _ _ => 0x50
  | .adda _ => 0x58
  | .eq _ _ => 0x60
  | .cmp _ _ => 0x61
  | .rdst => 0x70
  | .clrst => 0x71

/-- The layout of R61, bit 31 on the left. -/
def packWord (op : BitVec 8) (rd ra rb : RegIdx) (v : Bool) : BitVec 32 :=
  0#11 ++ BitVec.ofBool v ++ rb ++ ra ++ rd ++ op

/-- The command word of a command: its fields in their places, every other field 0 (R61). -/
def encode (i : Instr) : BitVec 32 :=
  packWord i.opcode (i.rd?.getD 0) (i.ra?.getD 0) (i.rb?.getD 0) (i.v?.getD false)

/-! ## The opcode table as the spec prints it (R70, opcode_table.json) -/

/-- One row: its name, `match` and `mask`, and which of the fields rd, ra, rb and v it uses. -/
structure Row where
  mnemonic : String
  pattern : BitVec 32
  mask : BitVec 32
  usesRd : Bool
  usesRa : Bool
  usesRb : Bool
  usesV : Bool
  deriving DecidableEq, Repr

/-- The row of a command: columns mnemonic, match, mask and fields of R70. -/
def Instr.row : Instr → Row
  | .zero _ => ⟨"ZERO", 0x00000010, 0xFFFFF0FF, true, false, false, false⟩
  | .full _ => ⟨"FULL", 0x00000011, 0xFFFFF0FF, true, false, false, false⟩
  | .new _ _ => ⟨"NEW", 0x00000012, 0xFFEFF0FF, true, false, false, true⟩
  | .ldv _ => ⟨"LDV", 0x00000013, 0xFFFFF0FF, true, false, false, false⟩
  | .frombit _ => ⟨"FROMBIT", 0x00000014, 0xFFFFF0FF, true, false, false, false⟩
  | .copy _ _ => ⟨"COPY", 0x00000015, 0xFFFF00FF, true, true, false, false⟩
  | .rdv _ => ⟨"RDV", 0x00000016, 0xFFFF0FFF, false, true, false, false⟩
  | .get _ => ⟨"GET", 0x00000020, 0xFFFF0FFF, false, true, false, false⟩
  | .set _ _ => ⟨"SET", 0x00000021, 0xFFEFF0FF, true, false, false, true⟩
  | .mask _ _ => ⟨"MASK", 0x00000030, 0xFFEFF0FF, true, false, false, true⟩
  | .setrange _ _ => ⟨"SETRANGE", 0x00000031, 0xFFEFF0FF, true, false, false, true⟩
  | .and _ _ _ => ⟨"AND", 0x00000040, 0xFFF000FF, true, true, true, false⟩
  | .or _ _ _ => ⟨"OR", 0x00000041, 0xFFF000FF, true, true, true, false⟩
  | .xor _ _ _ => ⟨"XOR", 0x00000042, 0xFFF000FF, true, true, true, false⟩
  | .not _ _ => ⟨"NOT", 0x00000043, 0xFFFF00FF, true, true, false, false⟩
  | .anda _ _ => ⟨"ANDA", 0x00000048, 0xFFF0F0FF, true, false, true, false⟩
  | .ora _ _ => ⟨"ORA", 0x00000049, 0xFFF0F0FF, true, false, true, false⟩
  | .xora _ _ => ⟨"XORA", 0x0000004A, 0xFFF0F0FF, true, false, true, false⟩
  | .nota _ => ⟨"NOTA", 0x0000004B, 0xFFFFF0FF, true, false, false, false⟩
  | .add _ _ => ⟨"ADD", 0x00000050, 0xFFFF00FF, true, true, false, false⟩
  | .adda _ => ⟨"ADDA", 0x00000058, 0xFFFFF0FF, true, false, false, false⟩
  | .eq _ _ => ⟨"EQ", 0x00000060, 0xFFF00FFF, false, true, true, false⟩
  | .cmp _ _ => ⟨"CMP", 0x00000061, 0xFFF00FFF, false, true, true, false⟩
  | .rdst => ⟨"RDST", 0x00000070, 0xFFFFFFFF, false, false, false, false⟩
  | .clrst => ⟨"CLRST", 0x00000071, 0xFFFFFFFF, false, false, false, false⟩

/-- The 25 rows, in the table's order. -/
def opcodeTable : List Row :=
  [Instr.zero 0, .full 0, .new 0 false, .ldv 0, .frombit 0, .copy 0 0, .rdv 0].map Instr.row ++
  [Instr.get 0, .set 0 false, .mask 0 false, .setrange 0 false].map Instr.row ++
  [Instr.and 0 0 0, .or 0 0 0, .xor 0 0 0, .not 0 0, .anda 0 0, .ora 0 0, .xora 0 0, .nota 0].map Instr.row ++
  [Instr.add 0 0, .adda 0, .eq 0 0, .cmp 0 0, .rdst, .clrst].map Instr.row

/-- The host's question: the command the decoder reads from the `nbits` low bits of `w`, the rest of the word 0, on an
engine of as many registers as `Machine.State.reset` has (log 10). No command is longer than one word (R60). -/
def decodeTableWord (nbits w : Nat) : Option Instr :=
  if 32 < nbits then none
  else
    match decode cfgA.R (BitVec.ofNat 32 (w % 2 ^ nbits)) with
    | .ok i => some i
    | .error _ => none

end Sys2Proof
end

