-- ==== Sys2Proof/Machine/State.lean ====
section
/-! DEFINITION. The packets of the two ports (30_encoding.md R60, R66), the state of the engine (10_state.md) as plain
data, and the state after reset (R32). -/

namespace Sys2Proof.Machine

/-- One command packet, presented whole on the command port (30_encoding.md R60). -/
structure Packet (c : Cfg) where
  /-- the command word -/
  cw : BitVec 32
  /-- first index operand: the bit index, or the begin of a range -/
  opa : BitVec c.IW
  /-- second index operand: the end of a range -/
  opb : BitVec c.IW
  /-- word operand: the scalar of an addition -/
  opw : BitVec c.W
  /-- vector operand: the word sequence of LDV -/
  opv : BitVec (c.L * c.W)
  deriving DecidableEq, Repr

/-- What the outside can do to the engine between two steps: present a command, or raise the reset event
(00_scope.md R11, 70_reset_and_hazards.md R240; log 2, log 5). -/
inductive Input (c : Cfg) where
  | command (p : Packet c)
  | reset
  deriving DecidableEq, Repr

/-- The status codes of 60_exceptions.md R200 that have a name. -/
inductive StatusCode where
  /-- code 0: the command completed -/
  | ok
  /-- code 1: GET, SET or FROMBIT with an index of `N` or more (R201) -/
  | indexOutOfRange
  /-- code 2: reserved under the document's name, never produced (R204; log 14) -/
  | lengthMismatch
  /-- code 3: the command word is illegal (R206) -/
  | illegalCommand
  deriving DecidableEq, Repr

/-- The three outcomes of CMP (45_compare.md R171). -/
inductive Order where
  | equal
  | less
  | greater
  deriving DecidableEq, Repr

/-- One response packet (30_encoding.md R66): the fields of the header `rh` and the vector result `rv`. Bit 7 of `rh` is
always 0 and has no field here; `Response.header` packs the word. -/
structure Response (c : Cfg) where
  status : StatusCode
  warn : Bool
  t : Bool
  ord : Order
  sr : BitVec 8
  rv : BitVec (c.L * c.W)
  deriving DecidableEq, Repr

/-- The engine of one configuration. `regs` and `status` are all the state the spec gives it (10_state.md R20, R27, R31);
`port`, `inputs` and `responses` stand for its two ports (log 2, log 3, log 4). -/
structure Engine (c : Cfg) where
  /-- `B[0]` to `B[R-1]`, each `L` limbs, index 0 first (R20) -/
  regs : Vector (Bitmap c) c.R
  /-- STATUS: bit 0 OVF, bits 3:1 ERR, bits 7:4 reserved (R27; log 11) -/
  status : BitVec 8
  /-- the packet accepted last, whose operand parts the running command reads (30_encoding.md R60) -/
  port : Packet c
  /-- what the host presents and the engine has not accepted, next first (00_scope.md R10) -/
  inputs : List (Input c)
  /-- the responses sent, oldest first (00_scope.md R10, 20_memory.md R50) -/
  responses : List (Response c)
  deriving DecidableEq, Repr

/-- The machine: its configuration, which no step changes (log 1), and its engine. -/
structure State where
  cfg : Cfg
  eng : Engine cfg
  deriving DecidableEq, Repr

/-- No fault exists: "the engine … has no fatal fault of any kind: no command halts it" (60_exceptions.md R205; log 7). -/
inductive Fault
  deriving DecidableEq, Repr

/-- Why a step gives no meaning. -/
inductive Refusal where
  /-- raised by an arm of `exec` for a command that has no meaning yet; no arm raises it. Safe: it stops. -/
  | notModelled (mnemonic : String)
  deriving DecidableEq, Repr

/-- A packet of zeros. -/
def Packet.blank (c : Cfg) : Packet c := ⟨0, 0, 0, 0, 0⟩

/-- The engine right after reset: every limb of every register 0, STATUS 0 (10_state.md R32); nothing presented and
nothing answered (DESIGN CHOICE, log 2, log 3, log 4). -/
def Engine.reset (c : Cfg) : Engine c :=
  { regs := Vector.replicate c.R (Vector.replicate c.L 0)
    status := 0
    port := Packet.blank c
    inputs := []
    responses := [] }

/-- The machine of configuration `c` right after reset. -/
def State.resetWith (c : Cfg) : State := ⟨c, Engine.reset c⟩

/-- The machine right after reset, in the reference configuration CFG-A (DESIGN CHOICE, log 1). -/
def State.reset : State := State.resetWith cfgA

end Sys2Proof.Machine
end

