-- ==== Sys2Proof/Machine/Flags.lean ====
section
/-! DEFINITION. The codes a response carries (30_encoding.md R66, 60_exceptions.md R200) and the STATUS register: its
fields and every way it is read and written (10_state.md R27 to R30, 46_status.md). -/

namespace Sys2Proof.Machine

/-- The number of a status code (60_exceptions.md R200). -/
def StatusCode.code : StatusCode → BitVec 3
  | .ok => 0
  | .indexOutOfRange => 1
  | .lengthMismatch => 2
  | .illegalCommand => 3

/-- The number of an ordering result (45_compare.md R171). -/
def Order.code : Order → BitVec 2
  | .equal => 0
  | .less => 1
  | .greater => 2

/-- STATUS.OVF, bit 0 (R27). -/
def statusOvf (s : BitVec 8) : Bool := s.getLsbD 0

/-- STATUS.ERR, bits 3:1 (R27). -/
def statusErr (s : BitVec 8) : BitVec 3 := s.extractLsb' 1 3

/-- STATUS[7:4], reserved (R27). -/
def statusReserved (s : BitVec 8) : BitVec 4 := s.extractLsb' 4 4

/-- STATUS.OVF <- 1, every other bit as it was (R28). -/
def statusSetOvf (s : BitVec 8) : BitVec 8 := s ||| 0x01#8

/-- STATUS.ERR <- code, every other bit as it was (R29). -/
def statusSetErr (k : StatusCode) (s : BitVec 8) : BitVec 8 :=
  s.extractLsb' 4 4 ++ k.code ++ s.extractLsb' 0 1

/-- CLRST: OVF and ERR <- 0; nothing writes the reserved bits (46_status.md R181, R27). -/
def statusClear (s : BitVec 8) : BitVec 8 := s &&& 0xF0#8

/-- What RDST returns: OVF and ERR, with bits 7:4 read as 0 (46_status.md R180, R27). -/
def statusRead (s : BitVec 8) : BitVec 8 := s &&& 0x0F#8

end Sys2Proof.Machine
end

