-- ==== Sys2Proof/Machine/Operands.lean ====
section
/-! DEFINITION. Operands: limbs and bits of a bitmap (20_memory.md), the lane-wise builders, the wide ports (R45), the
index and word operands of a packet (30_encoding.md R62), and the registers a command names. -/

namespace Sys2Proof

/-! ## Bit addressing (R42) -/

/-- Which limb holds bit `i`: `L - 1 - (i div W)`. -/
def Cfg.widx (c : Cfg) (i : Nat) : Nat := c.L - 1 - i / c.W

/-- Which bit of that limb, 0 the least significant: `i mod W`. -/
def Cfg.boff (c : Cfg) (i : Nat) : Nat := i % c.W

/-- `words[k]`; 0 where there is no limb `k` (no command asks for one). -/
def Bitmap.word {c : Cfg} (b : Bitmap c) (k : Nat) : Limb c := b[k]?.getD 0

/-- Bit `i` of a bitmap, `words[widx(i)][boff(i)]`. -/
def Bitmap.bit {c : Cfg} (b : Bitmap c) (i : Nat) : Bool := (b.word (c.widx i)).getLsbD (c.boff i)

/-- The bitmap with limb `k` replaced. -/
def Bitmap.setWord {c : Cfg} (b : Bitmap c) (k : Nat) (w : Limb c) : Bitmap c := b.setIfInBounds k w

/-! ## Builders -/

/-- `for k in 0 .. L-1: words[k] <- f k`. -/
def Bitmap.build {c : Cfg} (f : Nat → Limb c) : Bitmap c := Vector.ofFn fun k => f k.val

/-- `ZEROS` (00_scope.md R13). -/
def Bitmap.zeros {c : Cfg} : Bitmap c := Bitmap.build fun _ => 0

/-- `ONES`: every limb `MAXW` (00_scope.md R13). -/
def Bitmap.ones {c : Cfg} : Bitmap c := Bitmap.build fun _ => BitVec.allOnes c.W

/-- The lane rule (43_boolean.md R140): limb `k` of the result from limb `k` of each source. -/
def Bitmap.lanes {c : Cfg} (f : Limb c → Limb c → Limb c) (a b : Bitmap c) : Bitmap c :=
  Bitmap.build fun k => f (a.word k) (b.word k)

/-- The complement of every limb, padding bits included (43_boolean.md R144). -/
def Bitmap.complement {c : Cfg} (a : Bitmap c) : Bitmap c := Bitmap.build fun k => ~~~ a.word k

/-- `ZEROS` with bit `i` set (40_construct.md R104). -/
def Bitmap.single {c : Cfg} (i : Nat) : Bitmap c :=
  Bitmap.zeros.setWord (c.widx i) (BitVec.twoPow c.W (c.boff i))

/-- Bit `i` set or cleared by the single-bit mask of its limb (41_bit_access.md R121). -/
def Bitmap.putBit {c : Cfg} (b : Bitmap c) (i : Nat) (v : Bool) : Bitmap c :=
  let k := c.widx i
  let m := BitVec.twoPow c.W (c.boff i)
  b.setWord k (if v then b.word k ||| m else b.word k &&& ~~~ m)

/-! ## The wide ports (R44, R45) -/

/-- A limb list read as one big-endian number: the sum of `words[k] * 2^(W*(L-1-k))` (R44). -/
def limbsVal {w : Nat} : List (BitVec w) → Nat
  | [] => 0
  | x :: xs => x.toNat * 2 ^ (w * xs.length) + limbsVal xs

/-- `val(b)` (R44). -/
def Bitmap.val {c : Cfg} (b : Bitmap c) : Nat := limbsVal b.toList

/-- `opv` split into limbs: limb `k` is bits `(L-1-k)*W + W-1` down to `(L-1-k)*W` (R45). -/
def Bitmap.ofPort {c : Cfg} (opv : BitVec (c.L * c.W)) : Bitmap c :=
  Bitmap.build fun k => opv.extractLsb' ((c.L - 1 - k) * c.W) c.W

/-- The limbs on the response port: `rv = val(b)` (R45, 40_construct.md R106). -/
def Bitmap.toPort {c : Cfg} (b : Bitmap c) : BitVec (c.L * c.W) := BitVec.ofNat (c.L * c.W) b.val

end Sys2Proof

namespace Sys2Proof.Machine

/-! ## The operand parts of the packet being executed (30_encoding.md R60, R62) -/

/-- `opa`, an unsigned index: the bit index of GET, SET and FROMBIT, the begin of MASK and SETRANGE. -/
def Engine.indexA {c : Cfg} (e : Engine c) : Nat := e.port.opa.toNat

/-- `opb`, an unsigned index: the end of MASK and SETRANGE. -/
def Engine.indexB {c : Cfg} (e : Engine c) : Nat := e.port.opb.toNat

/-- `opw`, the scalar of an addition. -/
def Engine.scalar {c : Cfg} (e : Engine c) : Limb c := e.port.opw

/-- `opv` as a limb sequence. -/
def Engine.vector {c : Cfg} (e : Engine c) : Bitmap c := Bitmap.ofPort e.port.opv

/-! ## The registers a command names -/

/-- `B[r]` (10_state.md R20, R22). A field of `R` or more names no register: decoding refuses such a command
(30_encoding.md R75), and a read that is made all the same gives `ZEROS` (log 8). -/
def Engine.readReg {c : Cfg} (e : Engine c) (r : RegIdx) : Bitmap c := e.regs[r.toNat]?.getD Bitmap.zeros

/-- `B[r] <- b`: all `L` limbs at once, no other register (10_state.md R21, R23). Where there is no register `r`,
nothing is written (log 8). -/
def Engine.writeReg {c : Cfg} (e : Engine c) (r : RegIdx) (b : Bitmap c) : Engine c :=
  { e with regs := e.regs.setIfInBounds r.toNat b }

end Sys2Proof.Machine
end

