-- ==== Sys2Proof/Machine/Ops.lean ====
section
/-! DEFINITION. The shared operations: what a response holds and how one is sent, how a command ends (with a result, with
an answer, with a failure), accepting a packet, and the reset event. The engine's one form of "exception" is `fail`
(60_exceptions.md R211); there is no return from it, because nothing is saved (R213). -/

namespace Sys2Proof.Machine

/-! ## Responses (30_encoding.md R66) -/

/-- The response with a status and every other field 0. -/
def Response.bare {c : Cfg} (k : StatusCode) : Response c :=
  { status := k, warn := false, t := false, ord := .equal, sr := 0, rv := 0 }

/-- The header word `rh`: `sr` in bits 15:8, 0 in bit 7, `ord` in 6:5, `t` in 4, `warn` in 3, `status` in 2:0. -/
def Response.header {c : Cfg} (r : Response c) : BitVec 16 :=
  r.sr ++ 0#1 ++ r.ord.code ++ BitVec.ofBool r.t ++ BitVec.ofBool r.warn ++ r.status.code

/-- Send one response, after all earlier ones (00_scope.md R10, 20_memory.md R50). -/
def Engine.respond {c : Cfg} (e : Engine c) (r : Response c) : Engine c :=
  { e with responses := e.responses ++ [r] }

/-! ## How a command ends -/

/-- The step goes on to engine `e`, the configuration as it was. -/
def proceed (s : State) (e : Engine s.cfg) : Host.Outcome State Fault Refusal := .next ⟨s.cfg, e⟩

/-- `B[rd] <- b; rsp.status <- OK`. -/
def writeResult (rd : RegIdx) (s : State) (b : Bitmap s.cfg) : Host.Outcome State Fault Refusal :=
  proceed s ((s.eng.writeReg rd b).respond (.bare .ok))

/-- A command that writes no register answers with `r`. -/
def answer (s : State) (r : Response s.cfg) : Host.Outcome State Fault Refusal := proceed s (s.eng.respond r)

/-- `fail <code>`: no register written, STATUS.ERR <- code, the response is the code alone (60_exceptions.md R211). -/
def Engine.fail {c : Cfg} (e : Engine c) (k : StatusCode) : Engine c :=
  { e with status := statusSetErr k e.status }.respond (.bare k)

/-- A command that fails with code `k`. -/
def failWith (k : StatusCode) (s : State) : Host.Outcome State Fault Refusal := proceed s (s.eng.fail k)

/-- The index check of GET, SET and FROMBIT: against the capacity `N`, not against `L*W` (60_exceptions.md R201). -/
def checkIndex (s : State) (run : Host.Outcome State Fault Refusal) : Host.Outcome State Fault Refusal :=
  if s.cfg.N ≤ s.eng.indexA then failWith .indexOutOfRange s else run

/-! ## The ports -/

/-- Take packet `p` from the command port; `rest` is still to come. -/
def Engine.accept {c : Cfg} (e : Engine c) (p : Packet c) (rest : List (Input c)) : Engine c :=
  { e with port := p, inputs := rest }

/-- The reset event: every limb of every register and STATUS take their reset values (70_reset_and_hazards.md R240,
10_state.md R32). What the host has still to present and the responses already sent are not state of the engine. -/
def Engine.resetEvent {c : Cfg} (e : Engine c) (rest : List (Input c)) : Engine c :=
  { e with regs := (Engine.reset c).regs, status := (Engine.reset c).status, inputs := rest }

end Sys2Proof.Machine
end

