-- ==== Sys2Proof/Machine/Add.lean ====
section
/-! DEFINITION. Ripple-carry addition of a scalar: ADD ADDA (44_add.md). -/

namespace Sys2Proof

/-- The loop of R161 with `n` limbs left to walk, the next one `words[n-1]`: the sum is an unbounded integer, a limb that
overflows wraps and hands on a carry of 1, and the first limb that does not overflow ends the walk. -/
def rippleLoop {c : Cfg} (y : Bitmap c) (carry : Nat) : Nat → Bitmap c × Nat
  | 0 => (y, carry)
  | k + 1 =>
    let sum := (y.word k).toNat + carry
    if 2 ^ c.W - 1 < sum then rippleLoop (y.setWord k (BitVec.ofNat c.W (sum - 2 ^ c.W))) 1 k
    else (y.setWord k (BitVec.ofNat c.W sum), 0)

/-- `ripple_add(x, s)`: from the least significant limb up, starting with `carry = scalar` (R161). -/
def rippleAdd {c : Cfg} (x : Bitmap c) (s : Limb c) : Bitmap c × Nat := rippleLoop x s.toNat c.L

end Sys2Proof

namespace Sys2Proof.Machine

/-- The end of an addition: the wrapped result is written, and a carry of 1 raises the warning in the response and latches
STATUS.OVF (R162). -/
def addResult (rd : RegIdx) (s : State) (r : Bitmap s.cfg × Nat) : Host.Outcome State Fault Refusal :=
  let e := s.eng.writeReg rd r.1
  if r.2 = 1 then
    proceed s ({ e with status := statusSetOvf e.status }.respond { (Response.bare .ok : Response s.cfg) with warn := true })
  else proceed s (e.respond (.bare .ok))

/-- ADD (R163). -/
def execAdd (rd ra : RegIdx) (s : State) : Host.Outcome State Fault Refusal :=
  addResult rd s (rippleAdd (s.eng.readReg ra) s.eng.scalar)

/-- ADDA (R164). -/
def execAdda (rd : RegIdx) (s : State) : Host.Outcome State Fault Refusal :=
  addResult rd s (rippleAdd (s.eng.readReg rd) s.eng.scalar)

end Sys2Proof.Machine
end

