-- ==== Sys2Proof/Machine/BitAccess.lean ====
section
/-! DEFINITION. Single-bit access: GET SET (41_bit_access.md). -/

namespace Sys2Proof.Machine

/-- GET (R120). -/
def execGet (ra : RegIdx) (s : State) : Host.Outcome State Fault Refusal :=
  checkIndex s (answer s { (Response.bare .ok : Response s.cfg) with t := (s.eng.readReg ra).bit s.eng.indexA })

/-- SET (R121): the index check does not depend on `v`; all other bits and words untouched. -/
def execSet (rd : RegIdx) (v : Bool) (s : State) : Host.Outcome State Fault Refusal :=
  checkIndex s (writeResult rd s ((s.eng.readReg rd).putBit s.eng.indexA v))

end Sys2Proof.Machine
end

