-- ==== Sys2Proof/Machine/Boolean.lean ====
section
/-! DEFINITION. Boolean algebra: AND OR XOR NOT and their in-place forms ANDA ORA XORA NOTA (43_boolean.md). Sources are
read before the destination is written (10_state.md R24). -/

namespace Sys2Proof.Machine

/-- AND (R141). -/
def execAnd (rd ra rb : RegIdx) (s : State) : Host.Outcome State Fault Refusal :=
  writeResult rd s ((s.eng.readReg ra).lanes (· &&& ·) (s.eng.readReg rb))

/-- OR (R142). -/
def execOr (rd ra rb : RegIdx) (s : State) : Host.Outcome State Fault Refusal :=
  writeResult rd s ((s.eng.readReg ra).lanes (· ||| ·) (s.eng.readReg rb))

/-- XOR (R143). -/
def execXor (rd ra rb : RegIdx) (s : State) : Host.Outcome State Fault Refusal :=
  writeResult rd s ((s.eng.readReg ra).lanes (· ^^^ ·) (s.eng.readReg rb))

/-- NOT (R144): padding bits are complemented and not cleared. -/
def execNot (rd ra : RegIdx) (s : State) : Host.Outcome State Fault Refusal :=
  writeResult rd s (s.eng.readReg ra).complement

/-- ANDA (R145). -/
def execAnda (rd rb : RegIdx) (s : State) : Host.Outcome State Fault Refusal :=
  writeResult rd s ((s.eng.readReg rd).lanes (· &&& ·) (s.eng.readReg rb))

/-- ORA (R146). -/
def execOra (rd rb : RegIdx) (s : State) : Host.Outcome State Fault Refusal :=
  writeResult rd s ((s.eng.readReg rd).lanes (· ||| ·) (s.eng.readReg rb))

/-- XORA (R147). -/
def execXora (rd rb : RegIdx) (s : State) : Host.Outcome State Fault Refusal :=
  writeResult rd s ((s.eng.readReg rd).lanes (· ^^^ ·) (s.eng.readReg rb))

/-- NOTA (R148). -/
def execNota (rd : RegIdx) (s : State) : Host.Outcome State Fault Refusal :=
  writeResult rd s (s.eng.readReg rd).complement

end Sys2Proof.Machine
end

