-- ==== Sys2Proof/Machine/Compare.lean ====
section
/-! DEFINITION. Equality and ordering: EQ CMP (45_compare.md). -/

namespace Sys2Proof.Machine

/-- The walk of R171 from the most significant limb: the first pair of limbs that differ decides, unsigned. -/
def compareLimbs {w : Nat} : List (BitVec w) → List (BitVec w) → Order
  | x :: xs, y :: ys =>
    if x.toNat < y.toNat then .less
    else if y.toNat < x.toNat then .greater
    else compareLimbs xs ys
  | [], _ => .equal
  | _ :: _, [] => .equal

/-- EQ (R170): every limb equal, padding bits included. -/
def execEq (ra rb : RegIdx) (s : State) : Host.Outcome State Fault Refusal :=
  answer s { (Response.bare .ok : Response s.cfg) with t := decide ((s.eng.readReg ra).toList = (s.eng.readReg rb).toList) }

/-- CMP (R171). -/
def execCmp (ra rb : RegIdx) (s : State) : Host.Outcome State Fault Refusal :=
  answer s { (Response.bare .ok : Response s.cfg) with ord := compareLimbs (s.eng.readReg ra).toList (s.eng.readReg rb).toList }

end Sys2Proof.Machine
end

