-- ==== Sys2Proof/Machine/Construct.lean ====
section
/-! DEFINITION. Construction, copy and whole-register read: ZERO FULL NEW LDV FROMBIT COPY RDV (40_construct.md). -/

namespace Sys2Proof.Machine

/-- ZERO (R100). -/
def execZero (rd : RegIdx) (s : State) : Host.Outcome State Fault Refusal := writeResult rd s .zeros

/-- FULL (R101): all `L*W` bits, padding included. -/
def execFull (rd : RegIdx) (s : State) : Host.Outcome State Fault Refusal := writeResult rd s .ones

/-- NEW (R102). -/
def execNew (rd : RegIdx) (v : Bool) (s : State) : Host.Outcome State Fault Refusal :=
  writeResult rd s (if v then .ones else .zeros)

/-- LDV (R103): any limb values, padding bits included. -/
def execLdv (rd : RegIdx) (s : State) : Host.Outcome State Fault Refusal := writeResult rd s s.eng.vector

/-- FROMBIT (R104): on failure `B[rd]` keeps its value. -/
def execFrombit (rd : RegIdx) (s : State) : Host.Outcome State Fault Refusal :=
  checkIndex s (writeResult rd s (.single s.eng.indexA))

/-- COPY (R105). -/
def execCopy (rd ra : RegIdx) (s : State) : Host.Outcome State Fault Refusal := writeResult rd s (s.eng.readReg ra)

/-- RDV (R106): the stored bits as they are, padding not masked. -/
def execRdv (ra : RegIdx) (s : State) : Host.Outcome State Fault Refusal :=
  answer s { (Response.bare .ok : Response s.cfg) with rv := (s.eng.readReg ra).toPort }

end Sys2Proof.Machine
end

