-- ==== Sys2Proof/Machine/RangeMask.lean ====
section
/-! DEFINITION. Range masks: MASK SETRANGE (42_range_mask.md). -/

namespace Sys2Proof

/-- One limb of `mask_true`: the offsets of `[max begin lo, min e (lo + W))`, as the formula of R131 gives them. -/
def maskLimb (c : Cfg) (first e k : Nat) : Limb c :=
  let lo := (c.L - 1 - k) * c.W
  let s := max first lo
  let f := min e (lo + c.W)
  if s < f then BitVec.ofNat c.W ((2 ^ (f - s) - 1) * 2 ^ (s - lo)) else 0

/-- `mask_true(begin, end)` with its edge cases (R131): `end < 1` is `end = 0` on an unsigned operand (30_encoding.md
R62). -/
def Bitmap.maskTrue {c : Cfg} (first last : Nat) : Bitmap c :=
  if c.N ≤ first ∨ last = 0 then .zeros
  else Bitmap.build (maskLimb c first (min last c.N))

/-- The mask for either value: the false mask is the complement of the true one, padding included (R130, R132). -/
def Bitmap.rangeMask {c : Cfg} (first last : Nat) (v : Bool) : Bitmap c :=
  if v then .maskTrue first last else (Bitmap.maskTrue first last).complement

end Sys2Proof

namespace Sys2Proof.Machine

/-- MASK (R130): no value of begin or end is an error. -/
def execMask (rd : RegIdx) (v : Bool) (s : State) : Host.Outcome State Fault Refusal :=
  writeResult rd s (.rangeMask s.eng.indexA s.eng.indexB v)

/-- SETRANGE (R133): the true mask ORed in, or the false mask ANDed in. -/
def execSetrange (rd : RegIdx) (v : Bool) (s : State) : Host.Outcome State Fault Refusal :=
  let m := Bitmap.rangeMask s.eng.indexA s.eng.indexB v
  let x := s.eng.readReg rd
  writeResult rd s (if v then x.lanes (· ||| ·) m else x.lanes (· &&& ·) m)

end Sys2Proof.Machine
end

