-- ==== Sys2Proof/Machine/Status.lean ====
section
/-! DEFINITION. The status commands: RDST CLRST (46_status.md). -/

namespace Sys2Proof.Machine

/-- RDST (R180): reading does not clear. -/
def execRdst (s : State) : Host.Outcome State Fault Refusal :=
  answer s { (Response.bare .ok : Response s.cfg) with sr := statusRead s.eng.status }

/-- CLRST (R181). -/
def execClrst (s : State) : Host.Outcome State Fault Refusal :=
  proceed s ({ s.eng with status := statusClear s.eng.status }.respond (.bare .ok))

end Sys2Proof.Machine
end

