-- ==== Sys2Proof/Machine/Dispatch.lean ====
section
/-! DEFINITION. The meaning of a decoded command: one arm per row of the opcode table (30_encoding.md R70). -/

namespace Sys2Proof.Machine

def exec (i : Instr) (s : State) : Host.Outcome State Fault Refusal :=
  match i with
  | .zero rd => Sys2Proof.Machine.execZero rd s
  | .full rd => Sys2Proof.Machine.execFull rd s
  | .new rd v => Sys2Proof.Machine.execNew rd v s
  | .ldv rd => Sys2Proof.Machine.execLdv rd s
  | .frombit rd => Sys2Proof.Machine.execFrombit rd s
  | .copy rd ra => Sys2Proof.Machine.execCopy rd ra s
  | .rdv ra => Sys2Proof.Machine.execRdv ra s
  | .get ra => Sys2Proof.Machine.execGet ra s
  | .set rd v => Sys2Proof.Machine.execSet rd v s
  | .mask rd v => Sys2Proof.Machine.execMask rd v s
  | .setrange rd v => Sys2Proof.Machine.execSetrange rd v s
  | .and rd ra rb => Sys2Proof.Machine.execAnd rd ra rb s
  | .or rd ra rb => Sys2Proof.Machine.execOr rd ra rb s
  | .xor rd ra rb => Sys2Proof.Machine.execXor rd ra rb s
  | .not rd ra => Sys2Proof.Machine.execNot rd ra s
  | .anda rd rb => Sys2Proof.Machine.execAnda rd rb s
  | .ora rd rb => Sys2Proof.Machine.execOra rd rb s
  | .xora rd rb => Sys2Proof.Machine.execXora rd rb s
  | .nota rd => Sys2Proof.Machine.execNota rd s
  | .add rd ra => Sys2Proof.Machine.execAdd rd ra s
  | .adda rd => Sys2Proof.Machine.execAdda rd s
  | .eq ra rb => Sys2Proof.Machine.execEq ra rb s
  | .cmp ra rb => Sys2Proof.Machine.execCmp ra rb s
  | .rdst => Sys2Proof.Machine.execRdst s
  | .clrst => Sys2Proof.Machine.execClrst s

end Sys2Proof.Machine
end

