-- ==== Sys2Proof/Machine/Port.lean ====
section
/-! DEFINITION. The command port: running the packet at the port, and taking what the host presents next. -/

namespace Sys2Proof.Machine

/-- Run the packet at the port: an illegal word fails with ILLEGAL_COMMAND whatever the operand parts hold
(60_exceptions.md R206, R210), every other word runs its command. -/
def runPort (s : State) : Host.Outcome State Fault Refusal :=
  match decode s.cfg.R s.eng.port.cw with
  | .error _ => failWith .illegalCommand s
  | .ok i => exec i s

/-- Accept the next thing the host presents and run it whole (00_scope.md R10). With nothing presented the engine waits
and nothing changes (log 2); the reset event is taken between commands (70_reset_and_hazards.md R240). -/
def takeInput (s : State) : Host.Outcome State Fault Refusal :=
  match s.eng.inputs with
  | [] => proceed s s.eng
  | .reset :: rest => proceed s (s.eng.resetEvent rest)
  | .command p :: rest => runPort ⟨s.cfg, s.eng.accept p rest⟩

/-- The packet whose command word is the `nbits` low bits of `w`, the rest of it and every operand part 0. -/
def Packet.ofWord (c : Cfg) (nbits w : Nat) : Packet c :=
  { Packet.blank c with cw := BitVec.ofNat 32 (w % 2 ^ nbits) }

/-- The engine with packet `p` presented ahead of everything else. -/
def Engine.present {c : Cfg} (e : Engine c) (p : Packet c) : Engine c := { e with inputs := .command p :: e.inputs }

end Sys2Proof.Machine
end

