-- ==== Sys2Proof/Machine/Step.lean ====
section
/-! DEFINITION. One step of the machine (00_scope.md R10) and the host's way to present one command. -/

namespace Sys2Proof.Machine

/-- One step: the engine takes the next command or event from its port and executes it whole (R10). -/
def step (s : State) : Host.Outcome State Fault Refusal := takeInput s

/-- The machine with one packet presented ahead of all others, the word `w` of `nbits` bits in it (log 9). -/
def State.withFetchWord (s : State) (nbits w : Nat) : State := ⟨s.cfg, s.eng.present (Packet.ofWord s.cfg nbits w)⟩

end Sys2Proof.Machine
end

