-- ==== Sys2Proof/Machine/Assembler.lean ====
section
/-! DEFINITION. Assembler and response text (30_encoding.md R80) and the pseudo-instructions (R81). Nothing the engine does depends on
this file: it says which packet a line of text stands for. -/

namespace Sys2Proof.Machine

/-- The packet of a command with its operand parts. -/
def Packet.make {c : Cfg} (i : Instr) (opa opb : BitVec c.IW) (opw : BitVec c.W) (opv : BitVec (c.L * c.W)) : Packet c :=
  ⟨encode i, opa, opb, opw, opv⟩

/-- The pseudo-instructions of R81. -/
inductive Pseudo (c : Cfg) where
  /-- `SETBIT bd, index` -/
  | setbit (rd : RegIdx) (index : BitVec c.IW)
  /-- `CLRBIT bd, index` -/
  | clrbit (rd : RegIdx) (index : BitVec c.IW)
  /-- `INC bd` -/
  | inc (rd : RegIdx)
  /-- `MOV bd, ba` -/
  | mov (rd ra : RegIdx)
  deriving DecidableEq, Repr

/-- Each expands to exactly one command (R81). -/
def Pseudo.expand {c : Cfg} : Pseudo c → Packet c
  | .setbit rd index => Packet.make (.set rd true) index 0 0 0
  | .clrbit rd index => Packet.make (.set rd false) index 0 0 0
  | .inc rd => Packet.make (.adda rd) 0 0 1 0
  | .mov rd ra => Packet.make (.copy rd ra) 0 0 0 0

/-- A register's name, `b0` to `b15` (R80). -/
def regText (r : RegIdx) : String := "b" ++ Nat.repr r.toNat

/-- Operands separated by a comma and a space (R80). -/
def listText : List String → String
  | [] => ""
  | [x] => x
  | x :: xs => x ++ ", " ++ listText xs

/-- The operands of a command in the order of R80: destination register, source registers, index operands, value bit,
word or vector operand; numbers in decimal (log 16). -/
def operandTexts {c : Cfg} (i : Instr) (p : Packet c) : List String :=
  (i.rd?.toList ++ i.ra?.toList ++ i.rb?.toList).map regText ++
  (if .opa ∈ i.ports then [Nat.repr p.opa.toNat] else []) ++
  (if .opb ∈ i.ports then [Nat.repr p.opb.toNat] else []) ++
  i.v?.toList.map (fun v => if v then "1" else "0") ++
  (if .opw ∈ i.ports then [Nat.repr p.opw.toNat] else []) ++
  (if .opv ∈ i.ports then
    ["[" ++ listText ((Bitmap.ofPort p.opv).toList.map fun w => Nat.repr w.toNat) ++ "]"] else [])

/-- The text of a command: `MNEMONIC operand, operand, ...` (R80). -/
def asmText {c : Cfg} (i : Instr) (p : Packet c) : String :=
  match operandTexts i p with
  | [] => i.row.mnemonic
  | xs => i.row.mnemonic ++ " " ++ listText xs

/-- The name of a status code (60_exceptions.md R200). -/
def StatusCode.text : StatusCode → String
  | .ok => "OK"
  | .indexOutOfRange => "INDEX_OUT_OF_RANGE"
  | .lengthMismatch => "LENGTH_MISMATCH"
  | .illegalCommand => "ILLEGAL_COMMAND"

/-- The response fields a command produces (R66), numbers in decimal (log 16). -/
def fieldTexts {c : Cfg} (r : Response c) : Instr → List String
  | .get _ | .eq _ _ => [if r.t then "t=1" else "t=0"]
  | .cmp _ _ => ["ord=" ++ Nat.repr r.ord.code.toNat]
  | .add _ _ | .adda _ => [if r.warn then "warn=1" else "warn=0"]
  | .rdst => ["sr=" ++ Nat.repr r.sr.toNat]
  | .rdv _ => ["rv=" ++ Nat.repr r.rv.toNat]
  | .zero _ | .full _ | .new _ _ | .ldv _ | .frombit _ | .copy _ _ | .set _ _ | .mask _ _ | .setrange _ _ => []
  | .and _ _ _ | .or _ _ _ | .xor _ _ _ | .not _ _ | .anda _ _ | .ora _ _ | .xora _ _ | .nota _ | .clrst => []

/-- How a response to command `i` is written: `-> status`, then the fields the command produces (R80); a failure produces
none (R211). -/
def responseText {c : Cfg} (i : Instr) (r : Response c) : String :=
  (if r.status = .ok then fieldTexts r i else []).foldl (fun s f => s ++ " " ++ f) ("-> " ++ r.status.text)

end Sys2Proof.Machine
end

