-- ==== Sys2Proof/Safety.lean ====
section
/-! DEFINITION. What a claim is stated in: the value of a bitmap as the spec writes it, what a command that writes one
register or only answers leaves, and the invariant of the machine. Nothing stops this engine (60_exceptions.md R205), so a
safe run is one whose every state meets `State.Inv`. -/

namespace Sys2Proof

open scoped BigOperators

/-- `val(b) = sum over k of b.words[k] * 2^(W*(L-1-k))` (20_memory.md R44). -/
def Bitmap.numeral {c : Cfg} (b : Bitmap c) : Nat := ∑ k : Fin c.L, b[k.val].toNat * 2 ^ (c.W * (c.L - 1 - k.val))

/-- The walk of 44_add.md R161, adding `s` to `x`, hands on a carry from limb `k`: the last limb overflows and every limb
from `k` up to it is `MAXW`, so that a carry of 1 overflows it too. From limb 0 the carry leaves the register (R162). -/
abbrev Bitmap.CarriesOutOf {c : Cfg} (x : Bitmap c) (s : Limb c) (k : Nat) : Prop :=
  2 ^ c.W ≤ (x.word (c.L - 1)).toNat + s.toNat ∧ ∀ j, j < c.L - 1 → k ≤ j → (x.word j).toNat = 2 ^ c.W - 1

end Sys2Proof

namespace Sys2Proof.Machine

/-- The response of a command that completes and produces no other field (30_encoding.md R66). -/
def okOnly (c : Cfg) : Response c := { status := .ok, warn := false, t := false, ord := .equal, sr := 0, rv := 0 }

/-- The response of a command that fails: the code, every other field 0 (60_exceptions.md R211). -/
def failure (c : Cfg) (k : StatusCode) : Response c :=
  { status := k, warn := false, t := false, ord := .equal, sr := 0, rv := 0 }

/-- The engine after one response and nothing else. -/
def Engine.answered {c : Cfg} (e : Engine c) (r : Response c) : Engine c := { e with responses := e.responses ++ [r] }

/-- The engine after `B[rd] <- b` and an OK response, and nothing else. -/
def Engine.wrote {c : Cfg} (e : Engine c) (rd : RegIdx) (b : Bitmap c) : Engine c :=
  { e with regs := e.regs.setIfInBounds rd.toNat b, responses := e.responses ++ [okOnly c] }

/-- What a failing command leaves (60_exceptions.md R211): no register written, STATUS.ERR the code, STATUS.OVF and the
reserved bits as they were, the response the code alone, nothing else changed. -/
def Engine.FailedWith {c : Cfg} (e : Engine c) (k : StatusCode) (e' : Engine c) : Prop :=
  ∃ st : BitVec 8, e' = { e with status := st, responses := e.responses ++ [failure c k] } ∧
    statusErr st = k.code ∧ statusOvf st = statusOvf e.status ∧ statusReserved st = statusReserved e.status

/-- The engine after `B[rd] <- b` with the overflow warning raised: STATUS bit 0 set, `warn = 1` (44_add.md R162). -/
def Engine.wroteWithWarning {c : Cfg} (e : Engine c) (rd : RegIdx) (b : Bitmap c) : Engine c :=
  { e with
    regs := e.regs.setIfInBounds rd.toNat b
    status := e.status ||| 0x01#8
    responses := e.responses ++ [{ okOnly c with warn := true }] }

/-- A response the engine may send: never LENGTH_MISMATCH, and when the status is not OK every other field is 0
(30_encoding.md R66, 60_exceptions.md R204). -/
def Response.Sound {c : Cfg} (r : Response c) : Prop :=
  r.status ≠ .lengthMismatch ∧ (r.status ≠ .ok → r = failure c r.status)

/-- STATUS is one the engine can hold: reserved bits 0, ERR the code 0, 1 or 3 (10_state.md R27, R29). -/
def StatusSound (s : BitVec 8) : Prop :=
  statusReserved s = 0 ∧ (statusErr s = 0 ∨ statusErr s = 1 ∨ statusErr s = 3)

/-- The invariant of one engine. -/
def Engine.Inv {c : Cfg} (e : Engine c) : Prop := StatusSound e.status ∧ ∀ r ∈ e.responses, r.Sound

/-- The invariant of the machine: a legal configuration (00_scope.md R6 to R9) and a sound engine. That every register
holds exactly `L` limbs of `W` bits (10_state.md R20, R23) is the type of `Engine.regs`; there is no memory to speak of (log 6). -/
def State.Inv (s : State) : Prop := s.cfg.Legal ∧ s.eng.Inv

end Sys2Proof.Machine
end

