-- ==== Sys2Proof/Certificates/Slice0/Obligations.lean ====
section
/-! DEFINITION. The statements for the provers. Unless a docstring says otherwise a statement holds for every
configuration, every engine and every operand that meets its hypotheses; `Cfg.Legal` is 00_scope.md R6 to R9 and is asked
for only where a limb of width 0 or a register of no limbs would make the sentence meaningless. -/

open Sys2Proof Sys2Proof.Machine

/-! ## Reset, the step, the ports -/

/-- 10_state.md R32, of `State.reset` and of the reset state of every configuration. -/
def Obligations.ResetClearsEveryRegisterAndStatus : Prop :=
  ∀ s : State, (s = State.reset ∨ ∃ c, s = State.resetWith c) →
    (∀ r (hr : r < s.cfg.R) k (hk : k < s.cfg.L), s.eng.regs[r][k] = 0) ∧
    statusOvf s.eng.status = false ∧ statusErr s.eng.status = 0 ∧ statusReserved s.eng.status = 0

/-- 70_reset_and_hazards.md R240; that the event is an item of `inputs` and leaves the rest of it and the responses already
sent alone is the model's choice (log 5). -/
def Obligations.ResetEventRestoresTheResetValues : Prop :=
  ∀ (c : Cfg) (e : Engine c) (rest : List (Input c)), e.inputs = .reset :: rest →
    ∃ e', step ⟨c, e⟩ = .next ⟨c, e'⟩ ∧
      (∀ r (hr : r < c.R) k (hk : k < c.L), e'.regs[r][k] = 0) ∧ e'.status = 0 ∧
      e'.inputs = rest ∧ e'.responses = e.responses

/-- The model's choice (log 2): with nothing presented a step changes nothing. -/
def Obligations.IdleStepChangesNothing : Prop :=
  ∀ (c : Cfg) (e : Engine c), e.inputs = [] → step ⟨c, e⟩ = .next ⟨c, e⟩

/-- The step runs the command the decoder reads, on the packet's own operand parts (30_encoding.md R60, R76). -/
def Obligations.StepRunsTheDecodedCommand : Prop :=
  ∀ (c : Cfg) (e : Engine c) (p : Packet c) (rest : List (Input c)) (i : Instr),
    e.inputs = .command p :: rest → decode c.R p.cw = .ok i →
    step ⟨c, e⟩ = exec i ⟨c, { e with port := p, inputs := rest }⟩

/-- 60_exceptions.md R206, whatever the operand parts hold (R210). -/
def Obligations.IllegalWordIsNotExecuted : Prop :=
  ∀ (c : Cfg) (e : Engine c) (p : Packet c) (rest : List (Input c)) (why : Illegal),
    e.inputs = .command p :: rest → decode c.R p.cw = .error why →
    ∃ e', step ⟨c, e⟩ = .next ⟨c, e'⟩ ∧ StatusCode.illegalCommand.code = 3 ∧
      ({ e with port := p, inputs := rest } : Engine c).FailedWith .illegalCommand e'

/-- 60_exceptions.md R205: "no command halts it, and there is no state from which it takes no further command". -/
def Obligations.EveryStepAnswersANextState : Prop :=
  ∀ (c : Cfg) (e : Engine c), ∃ e', step ⟨c, e⟩ = .next ⟨c, e'⟩

/-- 00_scope.md R10 and 20_memory.md R50: one response for each command accepted, after all earlier ones, and the commands
still to come are left in their order. -/
def Obligations.EachCommandGivesOneResponseInOrder : Prop :=
  ∀ (c : Cfg) (e : Engine c) (p : Packet c) (rest : List (Input c)), e.inputs = .command p :: rest →
    ∃ e' r, step ⟨c, e⟩ = .next ⟨c, e'⟩ ∧ e'.responses = e.responses ++ [r] ∧ e'.inputs = rest

/-- The host's fetch aid presents exactly the word it is given, with operand parts of zeros (log 9). -/
def Obligations.PresentedWordIsTheNextCommand : Prop :=
  ∀ (c : Cfg) (e : Engine c) (w : BitVec 32) (i : Instr), decode c.R w = .ok i →
    step (State.withFetchWord ⟨c, e⟩ 32 w.toNat) = exec i ⟨c, { e with port := ⟨w, 0, 0, 0, 0⟩ }⟩

/-! ## The invariant -/

/-- The reset state of every legal configuration meets the invariant. -/
def Obligations.InvariantHoldsAtReset : Prop :=
  (∀ c : Cfg, c.Legal → (State.resetWith c).Inv) ∧ State.reset.Inv

/-- Every step keeps it: STATUS stays one that 10_state.md R27 and R29 allow, every response sent is one 30_encoding.md R66
allows, and the configuration does not change. -/
def Obligations.StepKeepsTheInvariant : Prop :=
  ∀ s t : State, s.Inv → step s = .next t → t.Inv ∧ t.cfg = s.cfg

/-! ## Encoding -/

/-- Decoding the word of a command gives the command, every field at every value (30_encoding.md R61, R75). -/
def Obligations.DecodeOfEncodeIsTheCommand : Prop :=
  ∀ (R : Nat) (i : Instr), i.wellFormed R = true → decode R (encode i) = .ok i

/-- A word has one meaning: the command it decodes to is well-formed and encodes to that word. -/
def Obligations.EncodeOfDecodeIsTheWord : Prop :=
  ∀ (R : Nat) (cw : BitVec 32) (i : Instr), decode R cw = .ok i → i.wellFormed R = true ∧ encode i = cw

/-- 30_encoding.md R61: a word is the command of a row exactly when `cw & mask = match` and every used register field is
below `R`; the fields are bits 7:0, 11:8, 15:12, 19:16 and 20, and every unused field and bits 31:21 are 0. -/
def Obligations.CommandWordIsReadByItsRowAndFields : Prop :=
  ∀ (R : Nat) (cw : BitVec 32),
    (∀ row ∈ opcodeTable,
      (∃ i, decode R cw = .ok i ∧ i.row = row) ↔
        (cw &&& row.mask = row.pattern ∧
          (row.usesRd = true → (cw.extractLsb' 8 4).toNat < R) ∧
          (row.usesRa = true → (cw.extractLsb' 12 4).toNat < R) ∧
          (row.usesRb = true → (cw.extractLsb' 16 4).toNat < R))) ∧
    (∀ i, decode R cw = .ok i →
      i.opcode = cw.extractLsb' 0 8 ∧
      i.rd?.getD 0 = cw.extractLsb' 8 4 ∧ i.ra?.getD 0 = cw.extractLsb' 12 4 ∧ i.rb?.getD 0 = cw.extractLsb' 16 4 ∧
      i.v?.getD false = cw.getLsbD 20 ∧ cw.extractLsb' 21 11 = 0)

/-- 30_encoding.md R75: a word is illegal exactly when one of its four conditions holds. -/
def Obligations.WordIsIllegalExactlyOnTheFourConditions : Prop :=
  ∀ (R : Nat) (cw : BitVec 32),
    (∃ why, decode R cw = .error why) ↔
      ((∀ row ∈ opcodeTable, row.pattern.extractLsb' 0 8 ≠ cw.extractLsb' 0 8) ∨
       cw.extractLsb' 21 11 ≠ 0 ∨
       (∃ row ∈ opcodeTable, row.pattern.extractLsb' 0 8 = cw.extractLsb' 0 8 ∧
          ((row.usesRd = false ∧ cw.extractLsb' 8 4 ≠ 0) ∨ (row.usesRa = false ∧ cw.extractLsb' 12 4 ≠ 0) ∨
           (row.usesRb = false ∧ cw.extractLsb' 16 4 ≠ 0) ∨ (row.usesV = false ∧ cw.getLsbD 20 = true))) ∨
       (∃ row ∈ opcodeTable, row.pattern.extractLsb' 0 8 = cw.extractLsb' 0 8 ∧
          ((row.usesRd = true ∧ R ≤ (cw.extractLsb' 8 4).toNat) ∨ (row.usesRa = true ∧ R ≤ (cw.extractLsb' 12 4).toNat) ∨
           (row.usesRb = true ∧ R ≤ (cw.extractLsb' 16 4).toNat))))

/-- The worked encodings of 30_encoding.md R82, which the spec marks as its own inference ("each derived from the field
table"). -/
def Obligations.WorkedEncodingsDecode : Prop :=
  decode 8 0x00000010 = .ok (.zero 0) ∧ decode 8 0x00000311 = .ok (.full 3) ∧
  decode 8 0x00100212 = .ok (.new 2 true) ∧ decode 8 0x00100021 = .ok (.set 0 true) ∧
  decode 8 0x00005020 = .ok (.get 5) ∧ decode 8 0x00000130 = .ok (.mask 1 false) ∧
  decode 8 0x00021340 = .ok (.and 3 1 2) ∧ decode 8 0x0006074A = .ok (.xora 7 6) ∧
  decode 8 0x00000150 = .ok (.add 1 0) ∧ decode 8 0x00021061 = .ok (.cmp 1 2) ∧
  decode 8 0x00000070 = .ok .rdst ∧
  decode 8 0x00200010 = .error .reservedBits ∧ decode 8 0x00001010 = .error .unusedField ∧
  decode 8 0x00000000 = .error .reservedOpcode ∧ decode 8 0x00000910 = .error .absentRegister

/-- 30_encoding.md R63: two packets with one command word that agree on the parts the command reads do the same. -/
def Obligations.UnusedOperandPartsAreIgnored : Prop :=
  ∀ (c : Cfg) (e : Engine c) (p q : Packet c) (rest : List (Input c)), p.cw = q.cw →
    (∀ i, decode c.R p.cw = .ok i →
      (.opa ∈ i.ports → p.opa = q.opa) ∧ (.opb ∈ i.ports → p.opb = q.opb) ∧
      (.opw ∈ i.ports → p.opw = q.opw) ∧ (.opv ∈ i.ports → p.opv = q.opv)) →
    ∃ e', step ⟨c, { e with inputs := .command p :: rest }⟩ = .next ⟨c, e'⟩ ∧
      step ⟨c, { e with inputs := .command q :: rest }⟩ = .next ⟨c, { e' with port := q }⟩

/-- 30_encoding.md R81: the one packet each pseudo-instruction expands to, and NEW beside ZERO and FULL. -/
def Obligations.PseudoInstructionsExpandToOneCommand : Prop :=
  ∀ (c : Cfg) (rd ra : RegIdx) (index : BitVec c.IW) (s : State),
    ((Pseudo.setbit rd index : Pseudo c).expand.cw = encode (.set rd true) ∧
      (Pseudo.setbit rd index : Pseudo c).expand.opa = index) ∧
    ((Pseudo.clrbit rd index : Pseudo c).expand.cw = encode (.set rd false) ∧
      (Pseudo.clrbit rd index : Pseudo c).expand.opa = index) ∧
    ((Pseudo.inc rd : Pseudo c).expand.cw = encode (.adda rd) ∧ (Pseudo.inc rd : Pseudo c).expand.opw = 1) ∧
    (Pseudo.mov rd ra : Pseudo c).expand.cw = encode (.copy rd ra) ∧
    exec (.new rd false) s = exec (.zero rd) s ∧ exec (.new rd true) s = exec (.full rd) s

/-! ## Bit addressing and the wide ports -/

/-- 20_memory.md R42. -/
def Obligations.BitIndexNamesOneBitOfOneLimb : Prop :=
  ∀ c : Cfg, c.Legal → ∀ (b : Bitmap c) (i : Nat), i < c.N →
    i % c.W < c.W ∧ ∃ hk : c.L - 1 - i / c.W < c.L, b.bit i = b[c.L - 1 - i / c.W].getLsbD (i % c.W)

/-- 20_memory.md R44, with the spec's own inference there ("Bit i of the bitmap is bit i of val(b)"): the value is below
`2^(L*W)`, bit `i` of the bitmap is bit `i` of it, and no two bitmaps have one value. -/
def Obligations.BitmapIsABigEndianNumber : Prop :=
  ∀ c : Cfg, c.Legal → ∀ b : Bitmap c,
    b.numeral < 2 ^ (c.L * c.W) ∧ (∀ i, i < c.L * c.W → b.bit i = b.numeral.testBit i) ∧
    ∀ d : Bitmap c, b.numeral = d.numeral → b = d

/-- 20_memory.md R46: what LDV writes, GET reads bit by bit and RDV returns whole; what SET writes, RDV returns in its
place, every other bit as it was. -/
def Obligations.LoadedVectorReadsBackByBitAndWhole : Prop :=
  ∀ c : Cfg, c.Legal → ∀ (e : Engine c) (r : RegIdx), r.toNat < c.R →
    ∃ e', exec (.ldv r) ⟨c, e⟩ = .next ⟨c, e'⟩ ∧
      exec (.rdv r) ⟨c, e'⟩ = .next ⟨c, e'.answered { okOnly c with rv := e.port.opv }⟩ ∧
      ∀ p : Packet c, p.opa.toNat < c.N →
        exec (.get r) ⟨c, { e' with port := p }⟩ =
          .next ⟨c, ({ e' with port := p } : Engine c).answered
            { okOnly c with t := e.port.opv.getLsbD p.opa.toNat }⟩ ∧
        ∀ v : Bool, ∃ e'' rv, exec (.set r v) ⟨c, { e' with port := p }⟩ = .next ⟨c, e''⟩ ∧
          exec (.rdv r) ⟨c, e''⟩ = .next ⟨c, e''.answered { okOnly c with rv := rv }⟩ ∧
          ∀ j, j < c.L * c.W → rv.getLsbD j = if j = p.opa.toNat then v else e.port.opv.getLsbD j

/-! ## Construction, copy, read -/

/-- 40_construct.md R100, R101, R102. -/
def Obligations.ZeroFullAndNewConstruct : Prop :=
  ∀ (c : Cfg) (e : Engine c) (rd : RegIdx) (v : Bool), rd.toNat < c.R →
    encode (.zero rd) = packWord 0x10 rd 0 0 false ∧ encode (.full rd) = packWord 0x11 rd 0 0 false ∧
    encode (.new rd v) = packWord 0x12 rd 0 0 v ∧
    ∃ z o : Bitmap c, (∀ k (hk : k < c.L), z[k].toNat = 0 ∧ o[k].toNat = 2 ^ c.W - 1) ∧
      exec (.zero rd) ⟨c, e⟩ = .next ⟨c, e.wrote rd z⟩ ∧
      exec (.full rd) ⟨c, e⟩ = .next ⟨c, e.wrote rd o⟩ ∧
      exec (.new rd v) ⟨c, e⟩ = .next ⟨c, e.wrote rd (if v then o else z)⟩

/-- 40_construct.md R103: limb `k` is bits `(L-1-k)*W + W-1` down to `(L-1-k)*W` of `opv`. -/
def Obligations.LdvLoadsTheVectorOperand : Prop :=
  ∀ (c : Cfg) (e : Engine c) (rd : RegIdx), rd.toNat < c.R →
    encode (.ldv rd) = packWord 0x13 rd 0 0 false ∧
    ∃ b : Bitmap c, (∀ k (hk : k < c.L), b[k] = e.port.opv.extractLsb' ((c.L - 1 - k) * c.W) c.W) ∧
      exec (.ldv rd) ⟨c, e⟩ = .next ⟨c, e.wrote rd b⟩

/-- 40_construct.md R104. -/
def Obligations.FrombitSetsOneBitOrFails : Prop :=
  ∀ c : Cfg, c.Legal → ∀ (e : Engine c) (rd : RegIdx), rd.toNat < c.R →
    encode (.frombit rd) = packWord 0x14 rd 0 0 false ∧
    (e.port.opa.toNat < c.N →
      ∃ b : Bitmap c,
        (∀ k (hk : k < c.L), b[k].toNat =
          if k = c.L - 1 - e.port.opa.toNat / c.W then 2 ^ (e.port.opa.toNat % c.W) else 0) ∧
        exec (.frombit rd) ⟨c, e⟩ = .next ⟨c, e.wrote rd b⟩) ∧
    (c.N ≤ e.port.opa.toNat →
      ∃ e', exec (.frombit rd) ⟨c, e⟩ = .next ⟨c, e'⟩ ∧ e.FailedWith .indexOutOfRange e')

/-- 40_construct.md R105. -/
def Obligations.CopyDuplicatesTheSource : Prop :=
  ∀ (c : Cfg) (e : Engine c) (rd ra : RegIdx) (_ : rd.toNat < c.R) (ha : ra.toNat < c.R),
    encode (.copy rd ra) = packWord 0x15 rd ra 0 false ∧
    exec (.copy rd ra) ⟨c, e⟩ = .next ⟨c, e.wrote rd e.regs[ra.toNat]⟩

/-- 40_construct.md R106: each limb in its place on the port, and so the value of the register. -/
def Obligations.RdvReturnsTheStoredLimbs : Prop :=
  ∀ c : Cfg, c.Legal → ∀ (e : Engine c) (ra : RegIdx) (ha : ra.toNat < c.R),
    encode (.rdv ra) = packWord 0x16 0 ra 0 false ∧
    ∃ rv : BitVec (c.L * c.W),
      (∀ k (hk : k < c.L), rv.extractLsb' ((c.L - 1 - k) * c.W) c.W = e.regs[ra.toNat][k]) ∧
      rv.toNat = (e.regs[ra.toNat]).numeral ∧
      exec (.rdv ra) ⟨c, e⟩ = .next ⟨c, e.answered { okOnly c with rv := rv }⟩

/-! ## Single-bit access -/

/-- 41_bit_access.md R120. -/
def Obligations.GetReadsTheIndexedBitOrFails : Prop :=
  ∀ c : Cfg, c.Legal → ∀ (e : Engine c) (ra : RegIdx) (ha : ra.toNat < c.R),
    encode (.get ra) = packWord 0x20 0 ra 0 false ∧
    (e.port.opa.toNat < c.N →
      ∃ hk : c.L - 1 - e.port.opa.toNat / c.W < c.L,
        exec (.get ra) ⟨c, e⟩ = .next ⟨c, e.answered { okOnly c with
          t := (e.regs[ra.toNat][c.L - 1 - e.port.opa.toNat / c.W]).getLsbD (e.port.opa.toNat % c.W) }⟩) ∧
    (c.N ≤ e.port.opa.toNat →
      ∃ e', exec (.get ra) ⟨c, e⟩ = .next ⟨c, e'⟩ ∧ e.FailedWith .indexOutOfRange e')

/-- 41_bit_access.md R121: the indexed bit takes the value, every other bit of the `L*W` keeps its own, padding included. -/
def Obligations.SetChangesTheIndexedBitOrFails : Prop :=
  ∀ c : Cfg, c.Legal → ∀ (e : Engine c) (rd : RegIdx) (v : Bool) (hd : rd.toNat < c.R),
    encode (.set rd v) = packWord 0x21 rd 0 0 v ∧
    (e.port.opa.toNat < c.N →
      ∃ b : Bitmap c,
        (∀ j, j < c.L * c.W → b.bit j = if j = e.port.opa.toNat then v else (e.regs[rd.toNat]).bit j) ∧
        exec (.set rd v) ⟨c, e⟩ = .next ⟨c, e.wrote rd b⟩) ∧
    (c.N ≤ e.port.opa.toNat →
      ∃ e', exec (.set rd v) ⟨c, e⟩ = .next ⟨c, e'⟩ ∧ e.FailedWith .indexOutOfRange e')

/-- The law of 41_bit_access.md, which the document gives for `true` and the spec extends to `false` by its own inference
("The same holds with false for true", R122): after a SET of bit `i`, a GET of `i` answers the value and a GET of any other
index answers what it answered before. -/
def Obligations.GetAfterSetSeesTheBit : Prop :=
  ∀ c : Cfg, c.Legal → ∀ (e : Engine c) (r : RegIdx) (v : Bool), r.toNat < c.R → e.port.opa.toNat < c.N →
    ∃ e', exec (.set r v) ⟨c, e⟩ = .next ⟨c, e'⟩ ∧
      ∀ p : Packet c, p.opa.toNat < c.N →
        ∃ before after : Bool,
          exec (.get r) ⟨c, { e with port := p }⟩ =
            .next ⟨c, ({ e with port := p } : Engine c).answered { okOnly c with t := before }⟩ ∧
          exec (.get r) ⟨c, { e' with port := p }⟩ =
            .next ⟨c, ({ e' with port := p } : Engine c).answered { okOnly c with t := after }⟩ ∧
          after = if p.opa = e.port.opa then v else before

/-! ## Range masks -/

/-- 42_range_mask.md R130 and R131, with R132 for the false mask: over all `L*W` bits, for every begin and end. -/
def Obligations.MaskHoldsTheHalfOpenRange : Prop :=
  ∀ c : Cfg, c.Legal → ∀ (e : Engine c) (rd : RegIdx) (v : Bool), rd.toNat < c.R →
    encode (.mask rd v) = packWord 0x30 rd 0 0 v ∧
    ∃ b : Bitmap c,
      (∀ j, j < c.L * c.W →
        b.bit j = if e.port.opa.toNat ≤ j ∧ j < min e.port.opb.toNat c.N then v else !v) ∧
      exec (.mask rd v) ⟨c, e⟩ = .next ⟨c, e.wrote rd b⟩

/-- 42_range_mask.md R133: bits of the range take the value, every other bit of the `L*W` keeps its own. -/
def Obligations.SetrangeChangesOnlyTheRange : Prop :=
  ∀ c : Cfg, c.Legal → ∀ (e : Engine c) (rd : RegIdx) (v : Bool) (hd : rd.toNat < c.R),
    encode (.setrange rd v) = packWord 0x31 rd 0 0 v ∧
    ∃ b : Bitmap c,
      (∀ j, j < c.L * c.W →
        b.bit j = if e.port.opa.toNat ≤ j ∧ j < min e.port.opb.toNat c.N then v else (e.regs[rd.toNat]).bit j) ∧
      exec (.setrange rd v) ⟨c, e⟩ = .next ⟨c, e.wrote rd b⟩

/-- The round-trip law of 42_range_mask.md, which the spec extends by its own inference to every bounds and padding
("Under rules R130 to R132 it holds for *all* b and e, valid or not, and for every P", R135): the two masks of one range OR to FULL and AND to ZERO, limb by limb. -/
def Obligations.MaskRoundTrip : Prop :=
  ∀ (c : Cfg) (e : Engine c) (rd : RegIdx), rd.toNat < c.R →
    ∃ m f : Bitmap c,
      exec (.mask rd true) ⟨c, e⟩ = .next ⟨c, e.wrote rd m⟩ ∧
      exec (.mask rd false) ⟨c, e⟩ = .next ⟨c, e.wrote rd f⟩ ∧
      ∀ k (hk : k < c.L), m[k] ||| f[k] = BitVec.allOnes c.W ∧ m[k] &&& f[k] = 0

/-! ## Boolean algebra -/

/-- 43_boolean.md R141, R142, R143, R144. -/
def Obligations.ValueReturningBooleansWorkLimbByLimb : Prop :=
  ∀ (c : Cfg) (e : Engine c) (rd ra rb : RegIdx) (_ : rd.toNat < c.R) (ha : ra.toNat < c.R) (hb : rb.toNat < c.R),
    encode (.and rd ra rb) = packWord 0x40 rd ra rb false ∧ encode (.or rd ra rb) = packWord 0x41 rd ra rb false ∧
    encode (.xor rd ra rb) = packWord 0x42 rd ra rb false ∧ encode (.not rd ra) = packWord 0x43 rd ra 0 false ∧
    ∃ n o x m : Bitmap c,
      (∀ k (hk : k < c.L),
        n[k] = e.regs[ra.toNat][k] &&& e.regs[rb.toNat][k] ∧ o[k] = e.regs[ra.toNat][k] ||| e.regs[rb.toNat][k] ∧
        x[k] = e.regs[ra.toNat][k] ^^^ e.regs[rb.toNat][k] ∧
        m[k].toNat = 2 ^ c.W - 1 - (e.regs[ra.toNat][k]).toNat) ∧
      exec (.and rd ra rb) ⟨c, e⟩ = .next ⟨c, e.wrote rd n⟩ ∧
      exec (.or rd ra rb) ⟨c, e⟩ = .next ⟨c, e.wrote rd o⟩ ∧
      exec (.xor rd ra rb) ⟨c, e⟩ = .next ⟨c, e.wrote rd x⟩ ∧
      exec (.not rd ra) ⟨c, e⟩ = .next ⟨c, e.wrote rd m⟩

/-- 43_boolean.md R145, R146, R147, R148. -/
def Obligations.InPlaceBooleansWorkLimbByLimb : Prop :=
  ∀ (c : Cfg) (e : Engine c) (rd rb : RegIdx) (hd : rd.toNat < c.R) (hb : rb.toNat < c.R),
    encode (.anda rd rb) = packWord 0x48 rd 0 rb false ∧ encode (.ora rd rb) = packWord 0x49 rd 0 rb false ∧
    encode (.xora rd rb) = packWord 0x4A rd 0 rb false ∧ encode (.nota rd) = packWord 0x4B rd 0 0 false ∧
    ∃ n o x m : Bitmap c,
      (∀ k (hk : k < c.L),
        n[k] = e.regs[rd.toNat][k] &&& e.regs[rb.toNat][k] ∧ o[k] = e.regs[rd.toNat][k] ||| e.regs[rb.toNat][k] ∧
        x[k] = e.regs[rd.toNat][k] ^^^ e.regs[rb.toNat][k] ∧
        m[k].toNat = 2 ^ c.W - 1 - (e.regs[rd.toNat][k]).toNat) ∧
      exec (.anda rd rb) ⟨c, e⟩ = .next ⟨c, e.wrote rd n⟩ ∧
      exec (.ora rd rb) ⟨c, e⟩ = .next ⟨c, e.wrote rd o⟩ ∧
      exec (.xora rd rb) ⟨c, e⟩ = .next ⟨c, e.wrote rd x⟩ ∧
      exec (.nota rd) ⟨c, e⟩ = .next ⟨c, e.wrote rd m⟩

/-- The spec's own inference in 30_encoding.md ("An in-place form OPA rd, rb computes exactly what the value-returning form
OP rd, rd, rb computes", R71): same state and same response. -/
def Obligations.InPlaceFormsEqualTheirValueReturningForms : Prop :=
  ∀ (s : State) (rd rb : RegIdx),
    exec (.anda rd rb) s = exec (.and rd rd rb) s ∧ exec (.ora rd rb) s = exec (.or rd rd rb) s ∧
    exec (.xora rd rb) s = exec (.xor rd rd rb) s ∧ exec (.nota rd) s = exec (.not rd rd) s ∧
    exec (.adda rd) s = exec (.add rd rd) s

/-- The laws 43_boolean.md gives, which it infers from its rules for every padding ("all of which hold limb-wise and
therefore for every P", R149): AND commutes, OR with FULL is FULL, XOR with itself is ZERO, NOT of NOT is the operand. -/
def Obligations.BooleanAlgebraLaws : Prop :=
  ∀ (c : Cfg) (e : Engine c) (rd ra rb : RegIdx) (hd : rd.toNat < c.R) (ha : ra.toNat < c.R), rb.toNat < c.R →
    exec (.and rd ra rb) ⟨c, e⟩ = exec (.and rd rb ra) ⟨c, e⟩ ∧
    (∃ e', exec (.full rd) ⟨c, e⟩ = .next ⟨c, e'⟩ ∧
      exec (.or rb ra rd) ⟨c, e'⟩ = .next ⟨c, e'.wrote rb e'.regs[rd.toNat]⟩) ∧
    exec (.xor rd ra ra) ⟨c, e⟩ = exec (.zero rd) ⟨c, e⟩ ∧
    (∃ e', exec (.not rd ra) ⟨c, e⟩ = .next ⟨c, e'⟩ ∧
      exec (.not rb rd) ⟨c, e'⟩ = .next ⟨c, e'.wrote rb e.regs[ra.toNat]⟩)

/-! ## Addition -/

/-- 44_add.md R161 to R164, limb by limb: the last limb takes the scalar, a limb above it takes 1 exactly when the limbs
below hand on a carry, a limb that takes no carry keeps its value; the warning comes exactly when limb 0 hands one on. -/
def Obligations.CarryRipplesThroughFullLimbsOnly : Prop :=
  ∀ c : Cfg, c.Legal → ∀ (e : Engine c) (rd ra : RegIdx) (hd : rd.toNat < c.R) (ha : ra.toNat < c.R),
    encode (.add rd ra) = packWord 0x50 rd ra 0 false ∧ encode (.adda rd) = packWord 0x58 rd 0 0 false ∧
    (∃ y : Bitmap c,
      (∀ k (hk : k < c.L), (y[k]).toNat = ((e.regs[ra.toNat][k]).toNat +
        (if k = c.L - 1 then e.port.opw.toNat
         else if (e.regs[ra.toNat]).CarriesOutOf e.port.opw (k + 1) then 1 else 0)) % 2 ^ c.W) ∧
      exec (.add rd ra) ⟨c, e⟩ = .next ⟨c,
        if (e.regs[ra.toNat]).CarriesOutOf e.port.opw 0 then e.wroteWithWarning rd y else e.wrote rd y⟩) ∧
    (∃ y : Bitmap c,
      (∀ k (hk : k < c.L), (y[k]).toNat = ((e.regs[rd.toNat][k]).toNat +
        (if k = c.L - 1 then e.port.opw.toNat
         else if (e.regs[rd.toNat]).CarriesOutOf e.port.opw (k + 1) then 1 else 0)) % 2 ^ c.W) ∧
      exec (.adda rd) ⟨c, e⟩ = .next ⟨c,
        if (e.regs[rd.toNat]).CarriesOutOf e.port.opw 0 then e.wroteWithWarning rd y else e.wrote rd y⟩)

/-- The arithmetic law of 44_add.md, which the spec marks as its own inference from the algorithm ("val(y) = (val(x) + s)
mod 2^(L*W)", R166): the sum of the whole limb array modulo `2^(L*W)`, with the warning exactly when it reaches
`2^(L*W)`. -/
def Obligations.AdditionIsModularWithOverflowWarning : Prop :=
  ∀ c : Cfg, c.Legal → ∀ (e : Engine c) (rd ra : RegIdx) (hd : rd.toNat < c.R) (ha : ra.toNat < c.R),
    (∃ y : Bitmap c,
      y.numeral = ((e.regs[ra.toNat]).numeral + e.port.opw.toNat) % 2 ^ (c.L * c.W) ∧
      exec (.add rd ra) ⟨c, e⟩ = .next ⟨c,
        if 2 ^ (c.L * c.W) ≤ (e.regs[ra.toNat]).numeral + e.port.opw.toNat then e.wroteWithWarning rd y
        else e.wrote rd y⟩) ∧
    (∃ y : Bitmap c,
      y.numeral = ((e.regs[rd.toNat]).numeral + e.port.opw.toNat) % 2 ^ (c.L * c.W) ∧
      exec (.adda rd) ⟨c, e⟩ = .next ⟨c,
        if 2 ^ (c.L * c.W) ≤ (e.regs[rd.toNat]).numeral + e.port.opw.toNat then e.wroteWithWarning rd y
        else e.wrote rd y⟩)

/-! ## Comparison -/

/-- 45_compare.md R170. -/
def Obligations.EqComparesEveryLimb : Prop :=
  ∀ (c : Cfg) (e : Engine c) (ra rb : RegIdx) (ha : ra.toNat < c.R) (hb : rb.toNat < c.R),
    encode (.eq ra rb) = packWord 0x60 0 ra rb false ∧
    ∃ t : Bool, exec (.eq ra rb) ⟨c, e⟩ = .next ⟨c, e.answered { okOnly c with t := t }⟩ ∧
      (t = true ↔ ∀ k (hk : k < c.L), e.regs[ra.toNat][k] = e.regs[rb.toNat][k])

/-- 45_compare.md R171: the first limb at which the two differ decides, unsigned. -/
def Obligations.CmpOrdersLexicographically : Prop :=
  ∀ (c : Cfg) (e : Engine c) (ra rb : RegIdx) (ha : ra.toNat < c.R) (hb : rb.toNat < c.R),
    encode (.cmp ra rb) = packWord 0x61 0 ra rb false ∧
    Order.equal.code = 0 ∧ Order.less.code = 1 ∧ Order.greater.code = 2 ∧
    ∃ o : Order, exec (.cmp ra rb) ⟨c, e⟩ = .next ⟨c, e.answered { okOnly c with ord := o }⟩ ∧
      (o = .less ↔ ∃ k, ∃ hk : k < c.L, (∀ j (hj : j < k), e.regs[ra.toNat][j] = e.regs[rb.toNat][j]) ∧
        (e.regs[ra.toNat][k]).toNat < (e.regs[rb.toNat][k]).toNat) ∧
      (o = .greater ↔ ∃ k, ∃ hk : k < c.L, (∀ j (hj : j < k), e.regs[ra.toNat][j] = e.regs[rb.toNat][j]) ∧
        (e.regs[rb.toNat][k]).toNat < (e.regs[ra.toNat][k]).toNat) ∧
      (o = .equal ↔ ∀ k (hk : k < c.L), e.regs[ra.toNat][k] = e.regs[rb.toNat][k])

/-- The spec's own inference in 45_compare.md ("ord = 0 exactly when EQ would give t = 1; ord = 1 exactly when val(B[ra]) <
val(B[rb])", R170, R171): both commands compare the values of 20_memory.md R44. -/
def Obligations.ComparisonsAgreeWithTheValues : Prop :=
  ∀ (c : Cfg) (e : Engine c) (ra rb : RegIdx) (ha : ra.toNat < c.R) (hb : rb.toNat < c.R),
    ∃ (t : Bool) (o : Order), exec (.eq ra rb) ⟨c, e⟩ = .next ⟨c, e.answered { okOnly c with t := t }⟩ ∧
      exec (.cmp ra rb) ⟨c, e⟩ = .next ⟨c, e.answered { okOnly c with ord := o }⟩ ∧
      (t = true ↔ (e.regs[ra.toNat]).numeral = (e.regs[rb.toNat]).numeral) ∧ (o = .equal ↔ t = true) ∧
      (o = .less ↔ (e.regs[ra.toNat]).numeral < (e.regs[rb.toNat]).numeral) ∧
      (o = .greater ↔ (e.regs[rb.toNat]).numeral < (e.regs[ra.toNat]).numeral)

/-! ## STATUS, errors, responses -/

/-- 46_status.md R180: bit 0 OVF, bits 3:1 ERR, bits 7:4 zero; reading changes nothing but the responses. -/
def Obligations.RdstReturnsStatusAndKeepsIt : Prop :=
  ∀ (c : Cfg) (e : Engine c),
    encode .rdst = 0x00000070 ∧
    ∃ sr : BitVec 8, exec .rdst ⟨c, e⟩ = .next ⟨c, e.answered { okOnly c with sr := sr }⟩ ∧
      sr.getLsbD 0 = statusOvf e.status ∧ sr.extractLsb' 1 3 = statusErr e.status ∧ sr.extractLsb' 4 4 = 0

/-- 46_status.md R181. -/
def Obligations.ClrstClearsStatus : Prop :=
  ∀ (c : Cfg) (e : Engine c),
    encode .clrst = 0x00000071 ∧
    ∃ st : BitVec 8, exec .clrst ⟨c, e⟩ = .next ⟨c, { e with status := st, responses := e.responses ++ [okOnly c] }⟩ ∧
      statusOvf st = false ∧ statusErr st = 0 ∧ statusReserved st = statusReserved e.status

/-- 10_state.md R28: an addition that overflows sets OVF in the step that writes the result, and no other command sets it
or, CLRST apart, changes it. -/
def Obligations.OvfIsSetOnlyByOverflowingAdditions : Prop :=
  ∀ c : Cfg, c.Legal → ∀ (e : Engine c) (i : Instr), i.wellFormed c.R = true →
    ∃ e', exec i ⟨c, e⟩ = .next ⟨c, e'⟩ ∧
      (∀ rd ra (ha : ra.toNat < c.R), i = .add rd ra ∨ (i = .adda rd ∧ ra = rd) →
        (statusOvf e'.status = true ↔
          (statusOvf e.status = true ∨ (e.regs[ra.toNat]).CarriesOutOf e.port.opw 0))) ∧
      ((∀ rd ra, i ≠ .add rd ra) → (∀ rd, i ≠ .adda rd) → i ≠ .clrst → statusOvf e'.status = statusOvf e.status) ∧
      (i = .clrst → statusOvf e'.status = false)

/-- 10_state.md R29: ERR takes the code of a command whenever that code is not OK and is left as it was otherwise; CLRST,
which clears it (R181), is set apart. The codes are 0, 1 and 3. -/
def Obligations.ErrHoldsTheLatestFailure : Prop :=
  ∀ (c : Cfg) (e : Engine c) (p : Packet c) (rest : List (Input c)), e.inputs = .command p :: rest →
    ∃ e' r, step ⟨c, e⟩ = .next ⟨c, e'⟩ ∧ e'.responses = e.responses ++ [r] ∧
      (r.status ≠ .ok → statusErr e'.status = r.status.code) ∧
      (r.status = .ok → decode c.R p.cw ≠ .ok .clrst → statusErr e'.status = statusErr e.status) ∧
      (decode c.R p.cw = .ok .clrst → statusErr e'.status = 0) ∧
      StatusCode.ok.code = 0 ∧ StatusCode.indexOutOfRange.code = 1 ∧ StatusCode.illegalCommand.code = 3

/-- 10_state.md R30: two engines that differ only in STATUS answer every command but RDST alike and write the same
registers. -/
def Obligations.StatusInfluencesNothingButRdst : Prop :=
  ∀ (c : Cfg) (e : Engine c) (st : BitVec 8) (i : Instr), i ≠ .rdst →
    ∃ e1 e2 r, exec i ⟨c, e⟩ = .next ⟨c, e1⟩ ∧ exec i ⟨c, { e with status := st }⟩ = .next ⟨c, e2⟩ ∧
      e1.regs = e2.regs ∧ e1.responses = e.responses ++ [r] ∧ e2.responses = e.responses ++ [r]

/-- 60_exceptions.md R200, R204, R210: the one status code of each command, decoding before the index check; ERR takes it
when it is not OK, and the warning comes with OK only. -/
def Obligations.StatusCodeOfEveryCommand : Prop :=
  ∀ (c : Cfg) (e : Engine c) (p : Packet c) (rest : List (Input c)), e.inputs = .command p :: rest →
    ∃ e' r, step ⟨c, e⟩ = .next ⟨c, e'⟩ ∧ e'.responses = e.responses ++ [r] ∧
      (r.status = .illegalCommand ↔ ∃ why, decode c.R p.cw = .error why) ∧
      (r.status = .indexOutOfRange ↔ c.N ≤ p.opa.toNat ∧
        ∃ i, decode c.R p.cw = .ok i ∧
          ((∃ ra, i = .get ra) ∨ (∃ rd v, i = .set rd v) ∨ (∃ rd, i = .frombit rd))) ∧
      r.status ≠ .lengthMismatch ∧ (r.status ≠ .ok → statusErr e'.status = r.status.code) ∧
      (r.warn = true → r.status = .ok) ∧
      StatusCode.ok.code = 0 ∧ StatusCode.indexOutOfRange.code = 1 ∧ StatusCode.lengthMismatch.code = 2 ∧
      StatusCode.illegalCommand.code = 3

/-- 60_exceptions.md R211: whichever command failed and however, exactly this is left. -/
def Obligations.FailedCommandWritesNoRegister : Prop :=
  ∀ (c : Cfg) (e : Engine c) (p : Packet c) (rest : List (Input c)), e.inputs = .command p :: rest →
    ∃ e' r, step ⟨c, e⟩ = .next ⟨c, e'⟩ ∧ e'.responses = e.responses ++ [r] ∧
      (r.status ≠ .ok → ({ e with port := p, inputs := rest } : Engine c).FailedWith r.status e')

/-- 30_encoding.md R66: the places of the header's fields, and every field a command does not produce is 0. -/
def Obligations.ResponseHoldsOnlyWhatTheCommandProduces : Prop :=
  (∀ (c : Cfg) (r : Response c),
    r.header.extractLsb' 0 3 = r.status.code ∧ r.header.getLsbD 3 = r.warn ∧ r.header.getLsbD 4 = r.t ∧
    r.header.extractLsb' 5 2 = r.ord.code ∧ r.header.getLsbD 7 = false ∧ r.header.extractLsb' 8 8 = r.sr) ∧
  (∀ (c : Cfg) (e : Engine c) (p : Packet c) (rest : List (Input c)), e.inputs = .command p :: rest →
    ∃ e' r, step ⟨c, e⟩ = .next ⟨c, e'⟩ ∧ e'.responses = e.responses ++ [r] ∧
      (r.warn = true → ∃ i, decode c.R p.cw = .ok i ∧ ((∃ rd ra, i = .add rd ra) ∨ ∃ rd, i = .adda rd)) ∧
      (r.t = true → ∃ i, decode c.R p.cw = .ok i ∧ ((∃ ra, i = .get ra) ∨ ∃ ra rb, i = .eq ra rb)) ∧
      (r.ord ≠ .equal → ∃ ra rb, decode c.R p.cw = .ok (.cmp ra rb)) ∧
      (r.sr ≠ 0 → decode c.R p.cw = .ok .rdst) ∧
      (r.rv ≠ 0 → ∃ ra, decode c.R p.cw = .ok (.rdv ra)) ∧
      (r.status ≠ .ok → r.header = BitVec.zeroExtend 16 r.status.code ∧ r.rv = 0))

/-! ## Frames -/

/-- 10_state.md R21 to R23: a command changes no register but its destination, and of the rest of the state only STATUS
and the responses; only a failure, an overflow or CLRST changes STATUS. -/
def Obligations.CommandsChangeOnlyTheirDestination : Prop :=
  ∀ (c : Cfg) (e : Engine c) (i : Instr),
    ∃ e' r, exec i ⟨c, e⟩ = .next ⟨c, e'⟩ ∧ e'.port = e.port ∧ e'.inputs = e.inputs ∧
      e'.responses = e.responses ++ [r] ∧
      (∀ k, (∀ rd, i.rd? = some rd → k ≠ rd.toNat) → e'.regs[k]? = e.regs[k]?) ∧
      (r.status = .ok → r.warn = false → i ≠ .clrst → e'.status = e.status)

/-- The spec's own inference in 20_memory.md, marked there as derived from the command rules ("No read has a side effect",
"Every read is idempotent", R49): GET, RDV, EQ, CMP and RDST change no register, and of STATUS only ERR, by failing;
repeating one gives the same answer. -/
def Obligations.ReadsHaveNoSideEffect : Prop :=
  ∀ (c : Cfg) (e : Engine c) (i : Instr),
    ((∃ ra, i = .get ra) ∨ (∃ ra, i = .rdv ra) ∨ (∃ ra rb, i = .eq ra rb) ∨ (∃ ra rb, i = .cmp ra rb) ∨ i = .rdst) →
    ∃ e' e'' r, exec i ⟨c, e⟩ = .next ⟨c, e'⟩ ∧ exec i ⟨c, e'⟩ = .next ⟨c, e''⟩ ∧
      e'.regs = e.regs ∧ statusOvf e'.status = statusOvf e.status ∧
      statusReserved e'.status = statusReserved e.status ∧ (r.status = .ok → e'.status = e.status) ∧
      e'.responses = e.responses ++ [r] ∧ e''.responses = e'.responses ++ [r]

/-- 10_state.md R26: the padding bits after each command that writes a register, a failing FROMBIT or SET included. For ADD
and ADDA ("a carry out of the logical bits enters them; they take part in the sum") the bit is that of the sum modulo
`2^(L*W)`, which is the spec's own inference in 44_add.md ("val(y) = (val(x) + s) mod 2^(L*W)", R166). -/
def Obligations.PaddingBitsAfterEachCommand : Prop :=
  ∀ c : Cfg, c.Legal → ∀ (e : Engine c) (d a b : RegIdx) (v : Bool)
    (hd : d.toNat < c.R) (ha : a.toNat < c.R) (hb : b.toNat < c.R) (j : Nat), c.N ≤ j → j < c.L * c.W →
    let after (i : Instr) (bit : Bool) : Prop :=
      ∃ e' x, exec i ⟨c, e⟩ = .next ⟨c, e'⟩ ∧ e'.regs[d.toNat]? = some x ∧ x.bit j = bit
    after (.zero d) false ∧ after (.full d) true ∧ after (.new d v) v ∧ after (.ldv d) (e.port.opv.getLsbD j) ∧
    after (.copy d a) ((e.regs[a.toNat]).bit j) ∧ (e.port.opa.toNat < c.N → after (.frombit d) false) ∧
    (c.N ≤ e.port.opa.toNat → after (.frombit d) ((e.regs[d.toNat]).bit j)) ∧
    after (.set d v) ((e.regs[d.toNat]).bit j) ∧ after (.mask d v) (!v) ∧
    after (.setrange d v) ((e.regs[d.toNat]).bit j) ∧
    after (.and d a b) ((e.regs[a.toNat]).bit j && (e.regs[b.toNat]).bit j) ∧
    after (.or d a b) ((e.regs[a.toNat]).bit j || (e.regs[b.toNat]).bit j) ∧
    after (.xor d a b) (((e.regs[a.toNat]).bit j) ^^ ((e.regs[b.toNat]).bit j)) ∧
    after (.anda d b) ((e.regs[d.toNat]).bit j && (e.regs[b.toNat]).bit j) ∧
    after (.ora d b) ((e.regs[d.toNat]).bit j || (e.regs[b.toNat]).bit j) ∧
    after (.xora d b) (((e.regs[d.toNat]).bit j) ^^ ((e.regs[b.toNat]).bit j)) ∧
    after (.not d a) (!(e.regs[a.toNat]).bit j) ∧ after (.nota d) (!(e.regs[d.toNat]).bit j) ∧
    after (.add d a) ((((e.regs[a.toNat]).numeral + e.port.opw.toNat) % 2 ^ (c.L * c.W)).testBit j) ∧
    after (.adda d) ((((e.regs[d.toNat]).numeral + e.port.opw.toNat) % 2 ^ (c.L * c.W)).testBit j)

/-- 70_reset_and_hazards.md R246: after NOT, the mask of the `N` logical bits and ANDA give the complement of the logical
bits with every padding bit 0. -/
def Obligations.HostRestoresPaddingAfterNot : Prop :=
  ∀ c : Cfg, c.Legal → ∀ (e : Engine c) (d t a : RegIdx) (_ : d.toNat < c.R) (_ : t.toNat < c.R) (ha : a.toNat < c.R)
    (p : Packet c), d ≠ t → p.opa.toNat = 0 → p.opb.toNat = c.N →
    ∃ e1 e2 e3 x, exec (.not d a) ⟨c, e⟩ = .next ⟨c, e1⟩ ∧
      exec (.mask t true) ⟨c, { e1 with port := p }⟩ = .next ⟨c, e2⟩ ∧
      exec (.anda d t) ⟨c, e2⟩ = .next ⟨c, e3⟩ ∧ e3.regs[d.toNat]? = some x ∧
      ∀ j, j < c.L * c.W → x.bit j = (decide (j < c.N) && !(e.regs[a.toNat]).bit j)
end

