-- ==== Sys2Proof/Laws/Bitmap.lean ====
section
/-! SUPPORT. Limbs and bits of a bitmap: what each operation of Machine/Operands.lean does to limb `k` and to bit `i`, and
the one mapping between the two (20_memory.md R42, R43). -/

namespace Sys2Proof

/-! ## The mapping -/

theorem Cfg.Legal.width_pos {c : Cfg} (h : c.Legal) : 0 < c.W := h.1

theorem Cfg.Legal.words_pos {c : Cfg} (h : c.Legal) : 0 < c.L :=
  Nat.div_pos (by have := h.1; have := h.2.1; omega) h.1

/-- The limbs hold at least the capacity (00_scope.md R7). -/
theorem Cfg.Legal.capacity_le {c : Cfg} (h : c.Legal) : c.N ≤ c.L * c.W := by
  have h1 := Nat.div_add_mod (c.N + c.W - 1) c.W
  have h2 := Nat.mod_lt (c.N + c.W - 1) h.1
  have h3 : c.L * c.W = c.W * ((c.N + c.W - 1) / c.W) := Nat.mul_comm _ _
  have := h.1
  omega

theorem Cfg.Legal.boff_lt {c : Cfg} (h : c.Legal) (i : Nat) : c.boff i < c.W := Nat.mod_lt _ h.1

theorem Cfg.Legal.widx_lt {c : Cfg} (h : c.Legal) (i : Nat) : c.widx i < c.L := by
  have := h.words_pos; unfold Cfg.widx; generalize i / c.W = q; omega

theorem div_width_lt {c : Cfg} {i : Nat} (hi : i < c.L * c.W) : i / c.W < c.L :=
  Nat.div_lt_of_lt_mul (by rwa [Nat.mul_comm])

/-- The index is recovered from its limb and offset. -/
theorem index_of_widx_boff {c : Cfg} {i : Nat} (hi : i < c.L * c.W) :
    i = (c.L - 1 - c.widx i) * c.W + c.boff i := by
  have h1 := div_width_lt hi
  have h2 : c.L - 1 - c.widx i = i / c.W := by unfold Cfg.widx; generalize i / c.W = q at *; omega
  rw [h2, Cfg.boff, Nat.mul_comm]
  exact (Nat.div_add_mod i c.W).symm

/-- The mapping is one-to-one (41_bit_access.md R122). -/
theorem widx_boff_inj {c : Cfg} {i j : Nat} (hi : i < c.L * c.W) (hj : j < c.L * c.W)
    (hw : c.widx i = c.widx j) (ho : c.boff i = c.boff j) : i = j := by
  rw [index_of_widx_boff hi, index_of_widx_boff hj, hw, ho]

/-- The bit index of offset `o` in limb `k` (R43). -/
theorem widx_boff_of_place {c : Cfg} {k o : Nat} (hk : k < c.L) (ho : o < c.W) :
    c.widx ((c.L - 1 - k) * c.W + o) = k ∧ c.boff ((c.L - 1 - k) * c.W + o) = o ∧
      (c.L - 1 - k) * c.W + o < c.L * c.W := by
  have hd : ((c.L - 1 - k) * c.W + o) / c.W = c.L - 1 - k := by
    rw [Nat.mul_comm, Nat.mul_add_div (by omega), Nat.div_eq_of_lt ho, Nat.add_zero]
  refine ⟨by unfold Cfg.widx; rw [hd]; omega, ?_, ?_⟩
  · unfold Cfg.boff; rw [Nat.mul_comm, Nat.mul_add_mod, Nat.mod_eq_of_lt ho]
  · calc (c.L - 1 - k) * c.W + o < (c.L - 1 - k) * c.W + c.W := by omega
      _ = (c.L - 1 - k + 1) * c.W := by rw [Nat.add_mul, Nat.one_mul]
      _ ≤ c.L * c.W := Nat.mul_le_mul_right _ (by omega)

/-! ## Limbs -/

section
variable {c : Cfg}

theorem word_of_lt (b : Bitmap c) {k : Nat} (h : k < c.L) : b.word k = b[k] := by simp [Bitmap.word, h]

theorem word_of_le (b : Bitmap c) {k : Nat} (h : c.L ≤ k) : b.word k = 0 := by
  simp [Bitmap.word, Nat.not_lt.mpr h]

@[simp] theorem getElem_build (f : Nat → Limb c) {k : Nat} (h : k < c.L) : (Bitmap.build f : Bitmap c)[k] = f k := by
  simp [Bitmap.build]

theorem word_build (f : Nat → Limb c) (k : Nat) :
    (Bitmap.build f : Bitmap c).word k = if k < c.L then f k else 0 := by
  split
  · rw [word_of_lt _ ‹_›, getElem_build]
  · exact word_of_le _ (by omega)

@[simp] theorem word_zeros (k : Nat) : (Bitmap.zeros : Bitmap c).word k = 0 := by
  simp [Bitmap.zeros, word_build]

theorem word_ones {k : Nat} (h : k < c.L) : (Bitmap.ones : Bitmap c).word k = BitVec.allOnes c.W := by
  simp [Bitmap.ones, word_build, h]

theorem word_lanes (f : Limb c → Limb c → Limb c) (a b : Bitmap c) {k : Nat} (h : k < c.L) :
    (a.lanes f b).word k = f (a.word k) (b.word k) := by simp [Bitmap.lanes, word_build, h]

theorem word_complement (a : Bitmap c) {k : Nat} (h : k < c.L) : a.complement.word k = ~~~ a.word k := by
  simp [Bitmap.complement, word_build, h]

theorem word_ofPort (v : BitVec (c.L * c.W)) {k : Nat} (h : k < c.L) :
    (Bitmap.ofPort v).word k = v.extractLsb' ((c.L - 1 - k) * c.W) c.W := by
  simp [Bitmap.ofPort, word_build, h]

theorem word_setWord (b : Bitmap c) (k j : Nat) (w : Limb c) :
    (b.setWord k w).word j = if k = j ∧ j < c.L then w else b.word j := by
  unfold Bitmap.word Bitmap.setWord
  rw [Vector.getElem?_setIfInBounds]
  split
  · subst_vars; split <;> simp_all
  · simp_all

/-- Bitmaps with equal limbs are equal. -/
theorem ext_word {a b : Bitmap c} (h : ∀ k, k < c.L → a.word k = b.word k) : a = b := by
  apply Vector.ext
  intro k hk
  rw [← word_of_lt a hk, ← word_of_lt b hk, h k hk]

/-! ## Bits -/

theorem bit_ext {a b : Bitmap c} (h : ∀ i, i < c.L * c.W → a.bit i = b.bit i) : a = b := by
  apply ext_word
  intro k hk
  apply BitVec.eq_of_getLsbD_eq
  intro o ho
  obtain ⟨h1, h2, h3⟩ := widx_boff_of_place hk ho
  have := h _ h3
  rwa [Bitmap.bit, Bitmap.bit, h1, h2] at this

@[simp] theorem bit_zeros (i : Nat) : (Bitmap.zeros : Bitmap c).bit i = false := by simp [Bitmap.bit]

theorem bit_ones (hc : c.Legal) (i : Nat) : (Bitmap.ones : Bitmap c).bit i = true := by
  simp [Bitmap.bit, word_ones (hc.widx_lt i), hc.boff_lt i]

theorem bit_and (hc : c.Legal) (a b : Bitmap c) (i : Nat) :
    (a.lanes (· &&& ·) b).bit i = (a.bit i && b.bit i) := by
  simp [Bitmap.bit, word_lanes _ _ _ (hc.widx_lt i)]

theorem bit_or (hc : c.Legal) (a b : Bitmap c) (i : Nat) :
    (a.lanes (· ||| ·) b).bit i = (a.bit i || b.bit i) := by
  simp [Bitmap.bit, word_lanes _ _ _ (hc.widx_lt i)]

theorem bit_xor (hc : c.Legal) (a b : Bitmap c) (i : Nat) :
    (a.lanes (· ^^^ ·) b).bit i = ((a.bit i) ^^ (b.bit i)) := by
  simp [Bitmap.bit, word_lanes _ _ _ (hc.widx_lt i)]

theorem bit_complement (hc : c.Legal) (a : Bitmap c) (i : Nat) : a.complement.bit i = !a.bit i := by
  simp [Bitmap.bit, word_complement _ (hc.widx_lt i), hc.boff_lt i]

/-- Bit `i` of a bitmap loaded from the port is bit `i` of the port (R45). -/
theorem bit_ofPort (hc : c.Legal) (v : BitVec (c.L * c.W)) {i : Nat} (hi : i < c.L * c.W) :
    (Bitmap.ofPort v).bit i = v.getLsbD i := by
  rw [Bitmap.bit, word_ofPort _ (hc.widx_lt i), BitVec.getLsbD_extractLsb', ← index_of_widx_boff hi]
  simp [hc.boff_lt i]

/-- SET and FROMBIT: the bit written, and every other bit as it was (41_bit_access.md R121). -/
theorem bit_putBit (hc : c.Legal) (b : Bitmap c) {i j : Nat} (v : Bool) (hi : i < c.L * c.W) (hj : j < c.L * c.W) :
    (b.putBit i v).bit j = if j = i then v else b.bit j := by
  unfold Bitmap.putBit Bitmap.bit
  simp only [word_setWord]
  have hb := hc.boff_lt j
  by_cases hw : c.widx i = c.widx j
  · by_cases ho : c.boff i = c.boff j
    · have hij := widx_boff_inj hi hj hw ho
      subst hij
      rw [if_pos ⟨rfl, hc.widx_lt _⟩]
      cases v <;> simp [hb]
    · have hne : j ≠ i := by rintro rfl; exact ho rfl
      rw [if_pos ⟨hw, hc.widx_lt _⟩, if_neg hne, hw]
      cases v <;> simp [BitVec.getLsbD_twoPow, ho]
      intro _; exact hb
  · have hne : j ≠ i := by rintro rfl; exact hw rfl
    rw [if_neg (by simp [hw]), if_neg hne]

/-- FROMBIT writes what SET writes into `ZEROS`. -/
theorem single_eq_putBit (i : Nat) : (Bitmap.single i : Bitmap c) = Bitmap.putBit .zeros i true := by
  simp [Bitmap.single, Bitmap.putBit]

end

end Sys2Proof
end

