-- ==== Sys2Proof/Laws/Number.lean ====
section
/-! SUPPORT. A bitmap as one big-endian number (20_memory.md R44, R45): the recursion the machine uses is the sum the spec
writes, it is below `2^(L*W)`, its bits are the bits of the bitmap, and the ports carry it. -/

namespace Sys2Proof

open scoped BigOperators

theorem limbsVal_lt {w : Nat} (l : List (BitVec w)) : limbsVal l < 2 ^ (w * l.length) := by
  induction l with
  | nil => simp [limbsVal]
  | cons x xs ih =>
    rw [limbsVal, List.length_cons, Nat.mul_succ, Nat.pow_add, Nat.mul_comm (2 ^ _) (2 ^ w)]
    have hx := x.isLt
    calc x.toNat * 2 ^ (w * xs.length) + limbsVal xs
        < x.toNat * 2 ^ (w * xs.length) + 2 ^ (w * xs.length) := by omega
      _ = (x.toNat + 1) * 2 ^ (w * xs.length) := by ring
      _ ≤ 2 ^ w * 2 ^ (w * xs.length) := Nat.mul_le_mul_right _ hx

theorem limbsVal_eq_sum {w : Nat} (l : List (BitVec w)) :
    limbsVal l = ∑ k : Fin l.length, (l[k.val]).toNat * 2 ^ (w * (l.length - 1 - k.val)) := by
  induction l with
  | nil => simp [limbsVal]
  | cons x xs ih =>
    have hlen : (x :: xs).length = xs.length + 1 := rfl
    rw [limbsVal, ih]
    show _ = ∑ k : Fin (xs.length + 1), ((x :: xs)[k.val]).toNat * 2 ^ (w * (xs.length + 1 - 1 - k.val))
    rw [Fin.sum_univ_succ]
    congr 1
    apply Finset.sum_congr rfl
    intro k _
    have : xs.length + 1 - 1 - (k.succ).val = xs.length - 1 - k.val := by simp; omega
    rw [this]
    simp

variable {c : Cfg}

/-- The machine's `val` is the spec's (R44). -/
theorem val_eq_numeral (b : Bitmap c) : b.val = b.numeral := by
  unfold Bitmap.val Bitmap.numeral
  rw [limbsVal_eq_sum]
  have hl : b.toList.length = c.L := by simp
  refine Fintype.sum_equiv (finCongr hl) _ _ ?_
  intro k
  simp

theorem val_lt (b : Bitmap c) : b.val < 2 ^ (c.L * c.W) := by
  have := limbsVal_lt b.toList
  rwa [Vector.length_toList, Nat.mul_comm] at this

theorem numeral_lt (b : Bitmap c) : b.numeral < 2 ^ (c.L * c.W) := val_eq_numeral b ▸ val_lt b

theorem testBit_limbsVal {w : Nat} (l : List (BitVec w)) (j : Nat) (hj : j < w * l.length) :
    (limbsVal l).testBit j = (l[l.length - 1 - j / w]?.getD 0).getLsbD (j % w) := by
  have hw : 0 < w := Nat.pos_of_ne_zero fun h => by simp [h] at hj
  induction l with
  | nil => simp at hj
  | cons x xs ih =>
    have hlt := limbsVal_lt xs
    rw [limbsVal, Nat.mul_comm, Nat.testBit_two_pow_mul_add _ hlt]
    rw [List.length_cons] at hj ⊢
    have hmul : w * (xs.length + 1) = w * xs.length + w := Nat.mul_succ _ _
    split
    · rename_i hlow
      have hq : j / w < xs.length := Nat.div_lt_of_lt_mul hlow
      rw [ih hlow]
      congr 2
      have : xs.length + 1 - 1 - j / w = (xs.length - 1 - j / w) + 1 := by
        generalize j / w = q at *; omega
      rw [this, List.getElem?_cons_succ]
    · rename_i hhigh
      have hq : j / w = xs.length := by
        apply Nat.div_eq_of_lt_le
        · rw [Nat.mul_comm]; omega
        · rw [Nat.mul_comm, Nat.mul_succ]; omega
      have hr : j - w * xs.length = j % w := by
        have := Nat.div_add_mod j w
        rw [hq] at this; omega
      rw [hq, hr]
      simp [BitVec.testBit_toNat]

/-- Bit `i` of the bitmap is bit `i` of its value (R44). -/
theorem testBit_val (b : Bitmap c) {i : Nat} (hi : i < c.L * c.W) : b.val.testBit i = b.bit i := by
  unfold Bitmap.val
  rw [testBit_limbsVal _ _ (by rw [Vector.length_toList, Nat.mul_comm]; exact hi)]
  simp [Bitmap.bit, Bitmap.word, Cfg.widx, Cfg.boff]

theorem val_inj {a b : Bitmap c} (h : a.val = b.val) : a = b :=
  bit_ext fun i hi => by rw [← testBit_val a hi, ← testBit_val b hi, h]

theorem toNat_toPort (b : Bitmap c) : b.toPort.toNat = b.val := by
  rw [Bitmap.toPort, BitVec.toNat_ofNat, Nat.mod_eq_of_lt (val_lt b)]

/-- Bit `i` of the port is bit `i` of the bitmap (R45). -/
theorem getLsbD_toPort (b : Bitmap c) {i : Nat} (hi : i < c.L * c.W) : b.toPort.getLsbD i = b.bit i := by
  rw [← testBit_val b hi, ← toNat_toPort, BitVec.testBit_toNat]

/-- Each limb in its place on the port (R45). -/
theorem extract_toPort (b : Bitmap c) {k : Nat} (hk : k < c.L) :
    b.toPort.extractLsb' ((c.L - 1 - k) * c.W) c.W = b[k] := by
  apply BitVec.eq_of_getLsbD_eq
  intro o ho
  obtain ⟨h1, h2, h3⟩ := widx_boff_of_place hk ho
  rw [BitVec.getLsbD_extractLsb', getLsbD_toPort b h3, Bitmap.bit, h1, h2, word_of_lt b hk]
  simp [ho]

/-- RDV undoes LDV (R46). -/
theorem toPort_ofPort (hc : c.Legal) (v : BitVec (c.L * c.W)) : (Bitmap.ofPort v).toPort = v := by
  apply BitVec.eq_of_getLsbD_eq
  intro i hi
  rw [getLsbD_toPort _ hi, bit_ofPort hc v hi]

end Sys2Proof
end

