-- ==== Sys2Proof/Laws/Add.lean ====
section
/-! SUPPORT. Ripple addition: what the loop does to the value of the limb array (44_add.md R166) and to each limb (R161). -/

namespace Sys2Proof

open scoped BigOperators

variable {c : Cfg}

/-- Replacing one limb changes the value by that limb's weight. -/
theorem numeral_setWord (b : Bitmap c) {k : Nat} (hk : k < c.L) (w : Limb c) :
    (b.setWord k w).numeral + (b.word k).toNat * 2 ^ (c.W * (c.L - 1 - k)) =
      b.numeral + w.toNat * 2 ^ (c.W * (c.L - 1 - k)) := by
  unfold Bitmap.numeral
  rw [← Finset.add_sum_erase _ _ (Finset.mem_univ (⟨k, hk⟩ : Fin c.L)),
    ← Finset.add_sum_erase Finset.univ (fun j : Fin c.L => (b[j.val]).toNat * _) (Finset.mem_univ (⟨k, hk⟩ : Fin c.L))]
  have hrest : ∑ j ∈ Finset.univ.erase (⟨k, hk⟩ : Fin c.L),
        ((b.setWord k w)[j.val]).toNat * 2 ^ (c.W * (c.L - 1 - j.val)) =
      ∑ j ∈ Finset.univ.erase (⟨k, hk⟩ : Fin c.L), (b[j.val]).toNat * 2 ^ (c.W * (c.L - 1 - j.val)) := by
    apply Finset.sum_congr rfl
    intro j hj
    have hne : k ≠ j.val := by
      intro h; exact (Finset.mem_erase.mp hj).1 (Fin.ext h.symm)
    rw [← word_of_lt _ j.isLt, ← word_of_lt b j.isLt, word_setWord, if_neg (by simp [hne])]
  have hself : (b.setWord k w)[k] = w := by
    rw [← word_of_lt _ hk, word_setWord, if_pos ⟨rfl, hk⟩]
  simp only [hrest, hself, word_of_lt b hk]
  ring

/-- The loop preserves value plus carry: what leaves the walked limbs is the carry (R161, R166). -/
theorem rippleLoop_numeral (y : Bitmap c) (carry n : Nat) (hn : n ≤ c.L) (hcarry : carry < 2 ^ c.W) :
    (rippleLoop y carry n).1.numeral + (rippleLoop y carry n).2 * 2 ^ (c.W * c.L) =
      y.numeral + carry * 2 ^ (c.W * (c.L - n)) ∧
    (0 < n → (rippleLoop y carry n).2 ≤ 1) ∧ (carry ≤ 1 → (rippleLoop y carry n).2 ≤ 1) := by
  induction n generalizing y carry with
  | zero => simp [rippleLoop]
  | succ k ih =>
    have hk : k < c.L := by omega
    have hpos : 0 < 2 ^ c.W := Nat.two_pow_pos _
    have hword := (y.word k).isLt
    have hset := fun w => numeral_setWord y hk w
    have hexp : c.L - (k + 1) = c.L - 1 - k := by omega
    rw [rippleLoop, hexp]
    split
    · rename_i hover
      rcases Nat.lt_or_ge 1 (2 ^ c.W) with h1 | h1
      · obtain ⟨hv, _, hle⟩ := ih (y.setWord k (BitVec.ofNat c.W ((y.word k).toNat + carry - 2 ^ c.W))) 1
          (by omega) h1
        refine ⟨?_, fun _ => hle (Nat.le_refl _), fun _ => hle (Nat.le_refl _)⟩
        rw [hv]
        have hs := hset (BitVec.ofNat c.W ((y.word k).toNat + carry - 2 ^ c.W))
        rw [BitVec.toNat_ofNat, Nat.mod_eq_of_lt (by omega)] at hs
        have hstep : 2 ^ (c.W * (c.L - k)) = 2 ^ c.W * 2 ^ (c.W * (c.L - 1 - k)) := by
          rw [← Nat.pow_add]; congr 1
          have : c.L - k = (c.L - 1 - k) + 1 := by omega
          rw [this, Nat.mul_succ, Nat.add_comm]
        rw [hstep]
        obtain ⟨d, hd⟩ : ∃ d, (y.word k).toNat + carry = d + 2 ^ c.W := ⟨_, (Nat.sub_add_cancel (by omega)).symm⟩
        rw [hd, Nat.add_sub_cancel] at hs ⊢
        generalize 2 ^ (c.W * (c.L - 1 - k)) = u at *
        have : ((y.word k).toNat + carry) * u = (d + 2 ^ c.W) * u := by rw [hd]
        nlinarith
      · omega
    · rename_i hfit
      refine ⟨?_, fun _ => by simp, fun _ => by simp⟩
      have hs := hset (BitVec.ofNat c.W ((y.word k).toNat + carry))
      rw [BitVec.toNat_ofNat, Nat.mod_eq_of_lt (by omega)] at hs
      simp only [Nat.zero_mul, Nat.add_zero]
      generalize 2 ^ (c.W * (c.L - 1 - k)) = u at *
      nlinarith

/-- The arithmetic law (R166): the sum modulo `2^(L*W)`, and a carry of 1 exactly when it reaches `2^(L*W)`. -/
theorem rippleAdd_numeral (hc : c.Legal) (x : Bitmap c) (s : Limb c) :
    (rippleAdd x s).1.numeral = (x.numeral + s.toNat) % 2 ^ (c.L * c.W) ∧
    ((rippleAdd x s).2 = 1 ↔ 2 ^ (c.L * c.W) ≤ x.numeral + s.toNat) := by
  obtain ⟨hv, hle, -⟩ := rippleLoop_numeral x s.toNat c.L (Nat.le_refl _) s.isLt
  have hle := hle hc.words_pos
  have hy := numeral_lt (rippleLoop x s.toNat c.L).1
  rw [Nat.sub_self, Nat.mul_zero, Nat.pow_zero, Nat.mul_one, Nat.mul_comm c.W] at hv
  unfold rippleAdd
  generalize (rippleLoop x s.toNat c.L).1.numeral = y at *
  generalize (rippleLoop x s.toNat c.L).2 = k at *
  generalize 2 ^ (c.L * c.W) = m at *
  rcases Nat.le_one_iff_eq_zero_or_eq_one.mp hle with rfl | rfl
  · simp only [Nat.zero_mul, Nat.add_zero] at hv
    rw [← hv]
    exact ⟨(Nat.mod_eq_of_lt hy).symm, by omega⟩
  · rw [Nat.one_mul] at hv
    rw [← hv]
    refine ⟨?_, by omega⟩
    rw [Nat.add_mod_right, Nat.mod_eq_of_lt hy]

/-- The loop limb by limb: limbs not walked keep their value, the first walked takes the carry, and a later one takes 1
exactly when the first overflowed and every limb between was full (R161). -/
theorem rippleLoop_word (y : Bitmap c) (carry n : Nat) (hn : n ≤ c.L) (hcarry : carry < 2 ^ c.W) (hw : 0 < c.W)
    (k : Nat) (hk : k < c.L) :
    ((rippleLoop y carry n).1.word k).toNat =
      if n ≤ k then (y.word k).toNat
      else ((y.word k).toNat +
        (if k = n - 1 then carry
         else if 2 ^ c.W ≤ (y.word (n - 1)).toNat + carry ∧
            (∀ j, j < n - 1 → k < j → (y.word j).toNat = 2 ^ c.W - 1) then 1 else 0)) % 2 ^ c.W := by
  have h1 : 1 < 2 ^ c.W := Nat.one_lt_two_pow (by omega)
  induction n generalizing y carry with
  | zero => simp [rippleLoop]
  | succ m ih =>
    have hm : m < c.L := by omega
    have hym := (y.word m).isLt
    have hyk := (y.word k).isLt
    rw [rippleLoop]
    simp only [Nat.add_sub_cancel]
    split
    · rename_i hover
      rw [ih _ 1 (by omega) h1]
      rcases Nat.lt_trichotomy k m with hkm | rfl | hkm
      · have hnow : ¬m ≤ k := by omega
        have hthen : ¬m + 1 ≤ k := by omega
        have hne : ¬k = m := by omega
        rw [if_neg hnow, if_neg hthen, if_neg hne, word_setWord, if_neg (by omega)]
        have hset : ∀ j, j < m → (y.setWord m (BitVec.ofNat c.W ((y.word m).toNat + carry - 2 ^ c.W))).word j = y.word j :=
          fun j hj => by rw [word_setWord, if_neg (by omega)]
        congr 2
        by_cases hkm1 : k = m - 1
        · rw [if_pos hkm1, if_pos ⟨Nat.le_of_pred_lt hover, fun j _ _ => by omega⟩]
        · rw [if_neg hkm1, hset (m - 1) (by omega)]
          refine if_congr ?_ rfl rfl
          have hlast := (y.word (m - 1)).isLt
          constructor
          · rintro ⟨hfull, hall⟩
            refine ⟨by omega, fun j hjm hj => ?_⟩
            rcases Nat.lt_or_ge j (m - 1) with h | h
            · rw [← hset j hjm]; exact hall j h hj
            · have : j = m - 1 := by omega
              subst this; omega
          · rintro ⟨-, hall⟩
            refine ⟨by have := hall (m - 1) (by omega) (by omega); omega, fun j hjm hj => ?_⟩
            rw [hset j (by omega)]; exact hall j (by omega) hj
      · have hthen : ¬k + 1 ≤ k := by omega
        rw [if_pos (Nat.le_refl k), if_neg hthen, if_pos rfl, word_setWord, if_pos ⟨rfl, hk⟩, BitVec.toNat_ofNat]
        rw [Nat.mod_eq_sub_mod (a := (y.word k).toNat + carry) (by omega)]
      · have hnow : m ≤ k := by omega
        have hthen : m + 1 ≤ k := by omega
        rw [if_pos hnow, if_pos hthen, word_setWord, if_neg (by omega)]
    · rename_i hfit
      rw [word_setWord]
      rcases Nat.lt_trichotomy k m with hkm | rfl | hkm
      · have hthen : ¬m + 1 ≤ k := by omega
        have hne : ¬k = m := by omega
        have hnocarry : ¬(2 ^ c.W ≤ (y.word m).toNat + carry ∧
            ∀ j, j < m → k < j → (y.word j).toNat = 2 ^ c.W - 1) := fun h => by omega
        rw [if_neg hthen, if_neg hne, if_neg hnocarry, if_neg (by omega), Nat.add_zero, Nat.mod_eq_of_lt hyk]
      · have hthen : ¬k + 1 ≤ k := by omega
        rw [if_pos ⟨rfl, hk⟩, if_neg hthen, if_pos rfl, BitVec.toNat_ofNat]
      · have hthen : m + 1 ≤ k := by omega
        rw [if_neg (by omega), if_pos hthen]

/-- The loop ends with a carry of 1 exactly when the first limb walked overflows and every later one is full (R161). -/
theorem rippleLoop_carry (y : Bitmap c) (carry m : Nat) (hm : m < c.L) (hcarry : carry < 2 ^ c.W) (hw : 0 < c.W) :
    (rippleLoop y carry (m + 1)).2 = 1 ↔
      2 ^ c.W ≤ (y.word m).toNat + carry ∧ ∀ j, j < m → (y.word j).toNat = 2 ^ c.W - 1 := by
  have h1 : 1 < 2 ^ c.W := Nat.one_lt_two_pow (by omega)
  induction m generalizing y carry with
  | zero =>
    rw [rippleLoop]
    simp only [rippleLoop, Nat.not_lt_zero, false_implies, implies_true, and_true]
    split
    · exact ⟨fun _ => by omega, fun _ => rfl⟩
    · exact ⟨fun h => by simp at h, fun h => by omega⟩
  | succ m ih =>
    rw [rippleLoop]
    split
    · rename_i hover
      have hset : ∀ j, j < m + 1 → (y.setWord (m + 1) (BitVec.ofNat c.W ((y.word (m + 1)).toNat + carry - 2 ^ c.W))).word j = y.word j :=
        fun j hj => by rw [word_setWord, if_neg (by omega)]
      refine (ih _ 1 (by omega) h1).trans ?_
      rw [hset m (by omega)]
      have hlast := (y.word m).isLt
      constructor
      · rintro ⟨hfull, hall⟩
        refine ⟨by omega, fun j hj => ?_⟩
        rcases Nat.lt_or_ge j m with h | h
        · rw [← hset j hj]; exact hall j h
        · have : j = m := by omega
          subst this; omega
      · rintro ⟨-, hall⟩
        refine ⟨by have := hall m (by omega); omega, fun j hj => ?_⟩
        rw [hset j (by omega)]; exact hall j (by omega)
    · exact ⟨fun h => by simp at h, fun h => by omega⟩

/-- The sum limb by limb, and when the walk leaves the register with a carry (R161). -/
theorem rippleAdd_limbs (hc : c.Legal) (x : Bitmap c) (s : Limb c) :
    (∀ k (hk : k < c.L), ((rippleAdd x s).1[k]).toNat =
      (x[k].toNat + (if k = c.L - 1 then s.toNat else if x.CarriesOutOf s (k + 1) then 1 else 0)) % 2 ^ c.W) ∧
    ((rippleAdd x s).2 = 1 ↔ x.CarriesOutOf s 0) := by
  constructor
  · intro k hk
    rw [← word_of_lt _ hk, rippleAdd, rippleLoop_word _ _ _ (Nat.le_refl _) s.isLt hc.width_pos k hk, if_neg (by omega),
      word_of_lt _ hk]
    rfl
  · have hL := hc.words_pos
    obtain ⟨m, hm⟩ : ∃ m, c.L = m + 1 := ⟨c.L - 1, by omega⟩
    have h := rippleLoop_carry x s.toNat m (by omega) s.isLt hc.width_pos
    have hl : c.L - 1 = m := by omega
    rw [rippleAdd, hm, h, Bitmap.CarriesOutOf, hl]
    simp

end Sys2Proof
end

