-- ==== Sys2Proof/Laws/Bits.lean ====
section
/-! SUPPORT. Appended and extracted bits as numbers. -/

namespace Sys2Proof

theorem toNat_append_add {n m : Nat} (x : BitVec n) (y : BitVec m) : (x ++ y).toNat = x.toNat * 2 ^ m + y.toNat := by
  rw [BitVec.toNat_append, ← Nat.shiftLeft_add_eq_or_of_lt y.isLt, Nat.shiftLeft_eq]

theorem toNat_extract {n : Nat} (x : BitVec n) (s w : Nat) : (x.extractLsb' s w).toNat = x.toNat / 2 ^ s % 2 ^ w := by
  rw [BitVec.extractLsb'_toNat, Nat.shiftRight_eq_div_pow]

theorem toNat_getLsbD {n : Nat} (x : BitVec n) (s : Nat) : (x.getLsbD s).toNat = x.toNat / 2 ^ s % 2 := by
  rw [← BitVec.testBit_toNat, Nat.testBit_eq_decide_div_mod_eq]
  rcases Nat.mod_two_eq_zero_or_one (x.toNat / 2 ^ s) with h | h <;> simp [h]

theorem bool_eq_of_toNat {a b : Bool} (h : a.toNat = b.toNat) : a = b := by cases a <;> cases b <;> simp_all

theorem toNat_ofBool_eq (b : Bool) : (BitVec.ofBool b).toNat = b.toNat := by cases b <;> rfl

end Sys2Proof
end

