-- ==== Sys2Proof/Laws/Compare.lean ====
section
/-! SUPPORT. The walk of CMP: the first limb that differs decides, and so the values are ordered (45_compare.md R171). -/

namespace Sys2Proof.Machine

open Sys2Proof

/-- The value of limb lists of one length is ordered by their first limbs, then by the rest. -/
theorem limbsVal_cons_lt {w : Nat} {x y : BitVec w} {xs ys : List (BitVec w)} (hl : xs.length = ys.length)
    (h : x.toNat < y.toNat) : limbsVal (x :: xs) < limbsVal (y :: ys) := by
  have h1 := limbsVal_lt xs
  rw [limbsVal, limbsVal, ← hl]
  calc x.toNat * 2 ^ (w * xs.length) + limbsVal xs < x.toNat * 2 ^ (w * xs.length) + 2 ^ (w * xs.length) := by omega
    _ = (x.toNat + 1) * 2 ^ (w * xs.length) := by ring
    _ ≤ y.toNat * 2 ^ (w * xs.length) := Nat.mul_le_mul_right _ h
    _ ≤ _ := Nat.le_add_right _ _

/-- CMP by value. -/
theorem compareLimbs_val {w : Nat} (a b : List (BitVec w)) (hl : a.length = b.length) :
    (compareLimbs a b = .less ↔ limbsVal a < limbsVal b) ∧
    (compareLimbs a b = .greater ↔ limbsVal b < limbsVal a) ∧
    (compareLimbs a b = .equal ↔ limbsVal a = limbsVal b) := by
  induction a generalizing b with
  | nil => cases b with
    | nil => simp [compareLimbs]
    | cons => simp at hl
  | cons x xs ih => cases b with
    | nil => simp at hl
    | cons y ys =>
      have hl' : xs.length = ys.length := by simpa using hl
      rw [compareLimbs]
      rcases Nat.lt_trichotomy x.toNat y.toNat with h | h | h
      · have hv := limbsVal_cons_lt hl' h
        rw [if_pos h]
        refine ⟨by simp [hv], ?_, ?_⟩ <;> simp <;> omega
      · rw [if_neg (by omega), if_neg (by omega)]
        obtain ⟨h1, h2, h3⟩ := ih ys hl'
        rw [limbsVal, limbsVal, ← hl', h]
        refine ⟨h1.trans ?_, h2.trans ?_, h3.trans ?_⟩ <;> omega
      · have hv := limbsVal_cons_lt hl'.symm h
        rw [if_neg (by omega), if_pos h]
        refine ⟨?_, by simp [hv], ?_⟩ <;> simp <;> omega

/-- CMP by the first limb that differs. -/
theorem compareLimbs_less {w : Nat} (a b : List (BitVec w)) (hl : a.length = b.length) :
    compareLimbs a b = .less ↔
      ∃ k, k < a.length ∧ (∀ j, j < k → a[j]? = b[j]?) ∧ (a[k]?.getD 0).toNat < (b[k]?.getD 0).toNat := by
  induction a generalizing b with
  | nil => cases b <;> simp [compareLimbs]
  | cons x xs ih => cases b with
    | nil => simp at hl
    | cons y ys =>
      have hl' : xs.length = ys.length := by simpa using hl
      rw [compareLimbs]
      rcases Nat.lt_trichotomy x.toNat y.toNat with h | h | h
      · rw [if_pos h]
        exact ⟨fun _ => ⟨0, by simp, by simp, by simpa using h⟩, fun _ => rfl⟩
      · rw [if_neg (by omega), if_neg (by omega), ih ys hl']
        have hxy : x = y := BitVec.eq_of_toNat_eq h
        constructor
        · rintro ⟨k, hk, hj, hlt⟩
          refine ⟨k + 1, by simpa using hk, fun j hjk => ?_, by simpa using hlt⟩
          cases j with
          | zero => simp [hxy]
          | succ j => simpa using hj j (by omega)
        · rintro ⟨k, hk, hj, hlt⟩
          cases k with
          | zero => simp [hxy] at hlt
          | succ k =>
            exact ⟨k, by simpa using hk, fun j hjk => by simpa using hj (j + 1) (by omega), by simpa using hlt⟩
      · rw [if_neg (by omega), if_pos h]
        refine ⟨by simp, ?_⟩
        rintro ⟨k, hk, hj, hlt⟩
        cases k with
        | zero => simp at hlt; omega
        | succ k =>
          have := hj 0 (by omega)
          simp at this
          subst this
          omega

/-- Exchanging the operands exchanges less and greater. -/
theorem compareLimbs_greater_iff {w : Nat} (a b : List (BitVec w)) (hl : a.length = b.length) :
    compareLimbs a b = .greater ↔ compareLimbs b a = .less := by
  rw [(compareLimbs_val a b hl).2.1, (compareLimbs_val b a hl.symm).1]

end Sys2Proof.Machine
end

