-- ==== Sys2Proof/Laws/Decode.lean ====
section
/-! SUPPORT. The fields of a command word as numbers, what a packed word holds, and what the decoder answers when it
answers a command (30_encoding.md R61, R75). -/

namespace Sys2Proof

/-- The layout of R61 as a number. -/
theorem toNat_packWord (op : BitVec 8) (rd ra rb : RegIdx) (v : Bool) :
    (packWord op rd ra rb v).toNat =
      v.toNat * 2 ^ 20 + rb.toNat * 2 ^ 16 + ra.toNat * 2 ^ 12 + rd.toNat * 2 ^ 8 + op.toNat := by
  refine (toNat_append_add _ op).trans ?_
  rw [toNat_append_add, toNat_append_add, toNat_append_add, toNat_append_add]
  cases v <;> simp <;> ring

section
variable (cw : BitVec 32)

theorem toNat_opcodeOf : (opcodeOf cw).toNat = cw.toNat % 256 := by
  rw [opcodeOf, toNat_extract]; norm_num
theorem toNat_rdOf : (rdOf cw).toNat = cw.toNat / 256 % 16 := by
  rw [rdOf, toNat_extract]; norm_num
theorem toNat_raOf : (raOf cw).toNat = cw.toNat / 4096 % 16 := by
  rw [raOf, toNat_extract]; norm_num
theorem toNat_rbOf : (rbOf cw).toNat = cw.toNat / 65536 % 16 := by
  rw [rbOf, toNat_extract]; norm_num
theorem toNat_vOf : (vOf cw).toNat = cw.toNat / 1048576 % 2 := by
  rw [vOf, toNat_getLsbD]; norm_num
theorem toNat_reservedOf : (reservedOf cw).toNat = cw.toNat / 2097152 := by
  rw [reservedOf, toNat_extract]; have := cw.isLt; omega

/-- A word is the packing of its fields when bits 31:21 are 0. -/
theorem packWord_fields (h : reservedOf cw = 0) :
    packWord (opcodeOf cw) (rdOf cw) (raOf cw) (rbOf cw) (vOf cw) = cw := by
  have hr : cw.toNat / 2097152 = 0 := by rw [← toNat_reservedOf, h]; rfl
  apply BitVec.eq_of_toNat_eq
  rw [toNat_packWord, toNat_opcodeOf, toNat_rdOf, toNat_raOf, toNat_rbOf, toNat_vOf]
  omega

end

section
variable (op : BitVec 8) (rd ra rb : RegIdx) (v : Bool)

@[simp] theorem opcodeOf_packWord : opcodeOf (packWord op rd ra rb v) = op := by
  apply BitVec.eq_of_toNat_eq; rw [toNat_opcodeOf, toNat_packWord]; have := op.isLt; omega

@[simp] theorem rdOf_packWord : rdOf (packWord op rd ra rb v) = rd := by
  apply BitVec.eq_of_toNat_eq; rw [toNat_rdOf, toNat_packWord]
  have := op.isLt; have := rd.isLt; omega

@[simp] theorem raOf_packWord : raOf (packWord op rd ra rb v) = ra := by
  apply BitVec.eq_of_toNat_eq; rw [toNat_raOf, toNat_packWord]
  have := op.isLt; have := rd.isLt; have := ra.isLt; omega

@[simp] theorem rbOf_packWord : rbOf (packWord op rd ra rb v) = rb := by
  apply BitVec.eq_of_toNat_eq; rw [toNat_rbOf, toNat_packWord]
  have := op.isLt; have := rd.isLt; have := ra.isLt; have := rb.isLt; omega

@[simp] theorem vOf_packWord : vOf (packWord op rd ra rb v) = v := by
  apply bool_eq_of_toNat; rw [toNat_vOf, toNat_packWord]
  have := op.isLt; have := rd.isLt; have := ra.isLt; have := rb.isLt; have := v.toNat_lt; omega

@[simp] theorem reservedOf_packWord : reservedOf (packWord op rd ra rb v) = 0 := by
  apply BitVec.eq_of_toNat_eq; rw [toNat_reservedOf, toNat_packWord]
  have := op.isLt; have := rd.isLt; have := ra.isLt; have := rb.isLt; have := v.toNat_lt; simp; omega

end

/-- The command an opcode names has that opcode, and each field it has is the word's. -/
theorem commandOf_some {op : BitVec 8} {rd ra rb : RegIdx} {v : Bool} {i : Instr}
    (h : commandOf op rd ra rb v = some i) :
    i.opcode = op ∧ (i.rd? = none ∨ i.rd? = some rd) ∧ (i.ra? = none ∨ i.ra? = some ra) ∧
      (i.rb? = none ∨ i.rb? = some rb) ∧ (i.v? = none ∨ i.v? = some v) := by
  unfold commandOf at h
  split at h
  all_goals first
    | (cases h; done)
    | (rename_i hop
       cases h
       exact ⟨BitVec.eq_of_toNat_eq hop.symm, by simp [Instr.rd?], by simp [Instr.ra?], by simp [Instr.rb?],
         by simp [Instr.v?]⟩)

/-- The opcode table names every command. -/
theorem commandOf_opcode (i : Instr) :
    commandOf i.opcode (i.rd?.getD 0) (i.ra?.getD 0) (i.rb?.getD 0) (i.v?.getD false) = some i := by
  cases i <;> rfl

/-- Everything a decoded command says about its word (R61, R75). -/
theorem decode_ok {R : Nat} {cw : BitVec 32} {i : Instr} (h : decode R cw = .ok i) :
    commandOf (opcodeOf cw) (rdOf cw) (raOf cw) (rbOf cw) (vOf cw) = some i ∧ reservedOf cw = 0 ∧
      unusedFieldsZero cw i = true ∧ i.wellFormed R = true := by
  unfold decode at h
  split at h
  · cases h
  · split at h
    · cases h
    · split at h
      · cases h
      · split at h
        · cases h
        · cases h; simp_all

/-- The fields of a command that decodes are the word's, and what it does not use is 0 (R61). -/
theorem decode_ok_fields {R : Nat} {cw : BitVec 32} {i : Instr} (h : decode R cw = .ok i) :
    i.opcode = opcodeOf cw ∧ i.rd?.getD 0 = rdOf cw ∧ i.ra?.getD 0 = raOf cw ∧ i.rb?.getD 0 = rbOf cw ∧
      i.v?.getD false = vOf cw ∧ reservedOf cw = 0 := by
  obtain ⟨hc, hr, hu, -⟩ := decode_ok h
  obtain ⟨h1, h2, h3, h4, h5⟩ := commandOf_some hc
  simp only [unusedFieldsZero, Bool.and_eq_true, Bool.or_eq_true, beq_iff_eq, Bool.not_eq_true'] at hu
  obtain ⟨⟨⟨u1, u2⟩, u3⟩, u4⟩ := hu
  refine ⟨h1, ?_, ?_, ?_, ?_, hr⟩
  · rcases h2 with h | h <;> simp_all
  · rcases h3 with h | h <;> simp_all
  · rcases h4 with h | h <;> simp_all
  · rcases h5 with h | h <;> simp_all

/-! ## Words compared field by field -/

section
variable (x y : BitVec 32)

theorem opcodeOf_and : opcodeOf (x &&& y) = opcodeOf x &&& opcodeOf y := BitVec.extractLsb'_and ..
theorem rdOf_and : rdOf (x &&& y) = rdOf x &&& rdOf y := BitVec.extractLsb'_and ..
theorem raOf_and : raOf (x &&& y) = raOf x &&& raOf y := BitVec.extractLsb'_and ..
theorem rbOf_and : rbOf (x &&& y) = rbOf x &&& rbOf y := BitVec.extractLsb'_and ..
theorem vOf_and : vOf (x &&& y) = (vOf x && vOf y) := BitVec.getLsbD_and
theorem reservedOf_and : reservedOf (x &&& y) = reservedOf x &&& reservedOf y := BitVec.extractLsb'_and ..

/-- Two words are equal when their six fields are (R61). -/
theorem word_eq_iff : x = y ↔ opcodeOf x = opcodeOf y ∧ rdOf x = rdOf y ∧ raOf x = raOf y ∧ rbOf x = rbOf y ∧
    vOf x = vOf y ∧ reservedOf x = reservedOf y := by
  refine ⟨by rintro rfl; simp, fun ⟨h1, h2, h3, h4, h5, h6⟩ => BitVec.eq_of_toNat_eq ?_⟩
  have h1 := congrArg BitVec.toNat h1
  have h2 := congrArg BitVec.toNat h2
  have h3 := congrArg BitVec.toNat h3
  have h4 := congrArg BitVec.toNat h4
  have h5 := congrArg Bool.toNat h5
  have h6 := congrArg BitVec.toNat h6
  rw [toNat_opcodeOf, toNat_opcodeOf] at h1
  rw [toNat_rdOf, toNat_rdOf] at h2
  rw [toNat_raOf, toNat_raOf] at h3
  rw [toNat_rbOf, toNat_rbOf] at h4
  rw [toNat_vOf, toNat_vOf] at h5
  rw [toNat_reservedOf, toNat_reservedOf] at h6
  generalize x.toNat = a at *
  generalize y.toNat = b at *
  -- from the top field down: each quotient is settled before the next
  have e20 : a / 1048576 = b / 1048576 := by omega
  have e16 : a / 65536 = b / 65536 := by omega
  have e12 : a / 4096 = b / 4096 := by omega
  have e8 : a / 256 = b / 256 := by omega
  omega

end

theorem and_of_allOnes {w : Nat} (x m : BitVec w) (h : m = BitVec.allOnes w) : x &&& m = x := by
  subst h; exact BitVec.and_allOnes

/-- A row's mask has all of the opcode and of bits 31:21, and all of each field the row does not use. -/
theorem row_mask_fields (i : Instr) :
    opcodeOf i.row.mask = 255 ∧ opcodeOf i.row.pattern = i.opcode ∧
    rdOf i.row.mask = (bif i.row.usesRd then 0 else 15) ∧ rdOf i.row.pattern = 0 ∧
    raOf i.row.mask = (bif i.row.usesRa then 0 else 15) ∧ raOf i.row.pattern = 0 ∧
    rbOf i.row.mask = (bif i.row.usesRb then 0 else 15) ∧ rbOf i.row.pattern = 0 ∧
    vOf i.row.mask = !i.row.usesV ∧ vOf i.row.pattern = false ∧
    reservedOf i.row.mask = 2047 ∧ reservedOf i.row.pattern = 0 := by
  cases i <;> (simp only [Instr.row, Instr.opcode]; decide)

/-- `cw & mask = match` says: the opcode is the row's, and every field the row does not use and bits 31:21 are 0 (R61). -/
theorem and_mask_eq_pattern (i : Instr) (cw : BitVec 32) :
    cw &&& i.row.mask = i.row.pattern ↔
      opcodeOf cw = i.opcode ∧ (i.row.usesRd = true ∨ rdOf cw = 0) ∧ (i.row.usesRa = true ∨ raOf cw = 0) ∧
        (i.row.usesRb = true ∨ rbOf cw = 0) ∧ (i.row.usesV = true ∨ vOf cw = false) ∧ reservedOf cw = 0 := by
  obtain ⟨h1, h2, h3, h4, h5, h6, h7, h8, h9, h10, h11, h12⟩ := row_mask_fields i
  have hreg : ∀ (b : Bool) (x : BitVec 4), (x &&& (bif b then 0 else 15) = 0) ↔ (b = true ∨ x = 0) := by
    intro b x; cases b
    · rw [cond_false, and_of_allOnes x 15 (by decide)]; simp
    · simp
  have hbit : ∀ b v : Bool, ((v && !b) = false) ↔ (b = true ∨ v = false) := by decide
  rw [word_eq_iff, opcodeOf_and, rdOf_and, raOf_and, rbOf_and, vOf_and, reservedOf_and,
    h1, h2, h3, h4, h5, h6, h7, h8, h9, h10, h11, h12,
    and_of_allOnes _ 255 (by decide), and_of_allOnes _ 2047 (by decide), hreg, hreg, hreg, hbit]

end Sys2Proof
end

