-- ==== Sys2Proof/Laws/Flags.lean ====
section
/-! SUPPORT. STATUS field by field under each of its writers (10_state.md R27 to R29), and the fields of the response
header (30_encoding.md R66). -/

namespace Sys2Proof.Machine

@[simp] theorem statusErr_setErr (k : StatusCode) (s : BitVec 8) : statusErr (statusSetErr k s) = k.code := by
  revert s; cases k <;> decide

@[simp] theorem statusOvf_setErr (k : StatusCode) (s : BitVec 8) : statusOvf (statusSetErr k s) = statusOvf s := by
  revert s; cases k <;> decide

@[simp] theorem statusReserved_setErr (k : StatusCode) (s : BitVec 8) :
    statusReserved (statusSetErr k s) = statusReserved s := by
  revert s; cases k <;> decide

@[simp] theorem statusOvf_setOvf (s : BitVec 8) : statusOvf (statusSetOvf s) = true := by revert s; decide
@[simp] theorem statusErr_setOvf (s : BitVec 8) : statusErr (statusSetOvf s) = statusErr s := by revert s; decide
@[simp] theorem statusReserved_setOvf (s : BitVec 8) : statusReserved (statusSetOvf s) = statusReserved s := by
  revert s; decide

@[simp] theorem statusOvf_clear (s : BitVec 8) : statusOvf (statusClear s) = false := by revert s; decide
@[simp] theorem statusErr_clear (s : BitVec 8) : statusErr (statusClear s) = 0 := by revert s; decide
@[simp] theorem statusReserved_clear (s : BitVec 8) : statusReserved (statusClear s) = statusReserved s := by
  revert s; decide

theorem statusRead_fields (s : BitVec 8) :
    (statusRead s).getLsbD 0 = statusOvf s ∧ (statusRead s).extractLsb' 1 3 = statusErr s ∧
      (statusRead s).extractLsb' 4 4 = 0 := by
  revert s; decide

/-- The layout of R66 as a number. -/
theorem toNat_header {c : Cfg} (r : Response c) :
    r.header.toNat = r.sr.toNat * 2 ^ 8 + r.ord.code.toNat * 2 ^ 5 + r.t.toNat * 2 ^ 4 + r.warn.toNat * 2 ^ 3 +
      r.status.code.toNat := by
  refine (toNat_append_add _ r.status.code).trans ?_
  rw [toNat_append_add, toNat_append_add, toNat_append_add, toNat_append_add, toNat_ofBool_eq, toNat_ofBool_eq]
  simp only [BitVec.toNat_ofNat]
  ring

theorem header_fields {c : Cfg} (r : Response c) :
    r.header.extractLsb' 0 3 = r.status.code ∧ r.header.getLsbD 3 = r.warn ∧ r.header.getLsbD 4 = r.t ∧
      r.header.extractLsb' 5 2 = r.ord.code ∧ r.header.getLsbD 7 = false ∧ r.header.extractLsb' 8 8 = r.sr := by
  have h := toNat_header r
  have hw := r.warn.toNat_lt
  have ht := r.t.toNat_lt
  have hk := r.status.code.isLt
  have ho := r.ord.code.isLt
  have hs := r.sr.isLt
  refine ⟨BitVec.eq_of_toNat_eq ?_, bool_eq_of_toNat ?_, bool_eq_of_toNat ?_, BitVec.eq_of_toNat_eq ?_,
    bool_eq_of_toNat ?_, BitVec.eq_of_toNat_eq ?_⟩ <;>
  simp only [toNat_extract, toNat_getLsbD, h, Bool.toNat_false] <;> omega

end Sys2Proof.Machine
end

