-- ==== Sys2Proof/Laws/State.lean ====
section
/-! SUPPORT. What each update of the engine leaves in each field: one lemma per field per update, all by `rfl`. -/

namespace Sys2Proof.Machine

section
variable {c : Cfg} (e : Engine c) (r : RegIdx) (b : Bitmap c) (q : Response c) (k : StatusCode)
  (p : Packet c) (rest : List (Input c))

@[simp] theorem writeReg_regs : (e.writeReg r b).regs = e.regs.setIfInBounds r.toNat b := rfl
@[simp] theorem writeReg_status : (e.writeReg r b).status = e.status := rfl
@[simp] theorem writeReg_port : (e.writeReg r b).port = e.port := rfl
@[simp] theorem writeReg_inputs : (e.writeReg r b).inputs = e.inputs := rfl
@[simp] theorem writeReg_responses : (e.writeReg r b).responses = e.responses := rfl

@[simp] theorem respond_regs : (e.respond q).regs = e.regs := rfl
@[simp] theorem respond_status : (e.respond q).status = e.status := rfl
@[simp] theorem respond_port : (e.respond q).port = e.port := rfl
@[simp] theorem respond_inputs : (e.respond q).inputs = e.inputs := rfl
@[simp] theorem respond_responses : (e.respond q).responses = e.responses ++ [q] := rfl

@[simp] theorem fail_regs : (e.fail k).regs = e.regs := rfl
@[simp] theorem fail_status : (e.fail k).status = statusSetErr k e.status := rfl
@[simp] theorem fail_port : (e.fail k).port = e.port := rfl
@[simp] theorem fail_inputs : (e.fail k).inputs = e.inputs := rfl
@[simp] theorem fail_responses : (e.fail k).responses = e.responses ++ [Response.bare k] := rfl

@[simp] theorem accept_regs : (e.accept p rest).regs = e.regs := rfl
@[simp] theorem accept_status : (e.accept p rest).status = e.status := rfl
@[simp] theorem accept_port : (e.accept p rest).port = p := rfl
@[simp] theorem accept_inputs : (e.accept p rest).inputs = rest := rfl
@[simp] theorem accept_responses : (e.accept p rest).responses = e.responses := rfl

@[simp] theorem resetEvent_regs : (e.resetEvent rest).regs = (Engine.reset c).regs := rfl
@[simp] theorem resetEvent_status : (e.resetEvent rest).status = 0 := rfl
@[simp] theorem resetEvent_port : (e.resetEvent rest).port = e.port := rfl
@[simp] theorem resetEvent_inputs : (e.resetEvent rest).inputs = rest := rfl
@[simp] theorem resetEvent_responses : (e.resetEvent rest).responses = e.responses := rfl

@[simp] theorem present_regs : (e.present p).regs = e.regs := rfl
@[simp] theorem present_status : (e.present p).status = e.status := rfl
@[simp] theorem present_port : (e.present p).port = e.port := rfl
@[simp] theorem present_inputs : (e.present p).inputs = .command p :: e.inputs := rfl
@[simp] theorem present_responses : (e.present p).responses = e.responses := rfl

end

section
variable {c : Cfg} (k : StatusCode)

@[simp] theorem bare_status : (Response.bare k : Response c).status = k := rfl
@[simp] theorem bare_warn : (Response.bare k : Response c).warn = false := rfl
@[simp] theorem bare_t : (Response.bare k : Response c).t = false := rfl
@[simp] theorem bare_ord : (Response.bare k : Response c).ord = .equal := rfl
@[simp] theorem bare_sr : (Response.bare k : Response c).sr = 0 := rfl
@[simp] theorem bare_rv : (Response.bare k : Response c).rv = 0 := rfl

end

/-- A register the engine has reads as what it stores. -/
theorem readReg_present {c : Cfg} (e : Engine c) (r : RegIdx) (h : r.toNat < c.R) : e.readReg r = e.regs[r.toNat] := by
  simp [Engine.readReg, h]

/-- Writing a register: that register holds the new value, every other what it held. -/
theorem writeReg_getElem? {c : Cfg} (e : Engine c) (r : RegIdx) (b : Bitmap c) (k : Nat) :
    (e.writeReg r b).regs[k]? = if r.toNat = k ∧ k < c.R then some b else e.regs[k]? := by
  rw [writeReg_regs, Vector.getElem?_setIfInBounds]
  split
  · subst_vars; split <;> simp_all
  · simp_all

/-- Reading a register after a write. -/
theorem readReg_writeReg {c : Cfg} (e : Engine c) (r q : RegIdx) (b : Bitmap c) :
    (e.writeReg r b).readReg q = if r = q ∧ q.toNat < c.R then b else e.readReg q := by
  simp only [Engine.readReg, writeReg_getElem?, BitVec.toNat_inj]
  split <;> rfl

end Sys2Proof.Machine
end

