-- ==== Sys2Proof/Laws/Exec.lean ====
section
/-! SUPPORT. What each command answers, as one equation; what any command can do, as one case list; and what a step does
with what the host presents. -/

namespace Sys2Proof.Machine

variable {c : Cfg} (e : Engine c)

/-! ## The shared operations -/

/-- The result of a command that writes one register. -/
theorem wrote_eq (rd : RegIdx) (b : Bitmap c) : (e.writeReg rd b).respond (.bare .ok) = e.wrote rd b := rfl

theorem answered_eq (r : Response c) : e.respond r = e.answered r := rfl

theorem bare_ok_eq : (Response.bare .ok : Response c) = okOnly c := rfl

theorem bare_eq_failure (k : StatusCode) : (Response.bare k : Response c) = failure c k := rfl

/-- `fail` leaves exactly what 60_exceptions.md R211 says. -/
theorem fail_failedWith (k : StatusCode) : e.FailedWith k (e.fail k) :=
  ⟨statusSetErr k e.status, rfl, statusErr_setErr k _, statusOvf_setErr k _, statusReserved_setErr k _⟩

/-- The index check: a failure from the capacity up, the command below it (60_exceptions.md R201). -/
theorem checkIndex_eq (s : State) (run : Host.Outcome State Fault Refusal) :
    checkIndex s run = if s.cfg.N ≤ s.eng.port.opa.toNat then .next ⟨s.cfg, s.eng.fail .indexOutOfRange⟩ else run := rfl

/-! ## One equation per command -/

section
variable (rd ra rb : RegIdx) (v : Bool)

theorem exec_zero : exec (.zero rd) ⟨c, e⟩ = .next ⟨c, e.wrote rd .zeros⟩ := rfl
theorem exec_full : exec (.full rd) ⟨c, e⟩ = .next ⟨c, e.wrote rd .ones⟩ := rfl
theorem exec_new : exec (.new rd v) ⟨c, e⟩ = .next ⟨c, e.wrote rd (if v then .ones else .zeros)⟩ := rfl
theorem exec_ldv : exec (.ldv rd) ⟨c, e⟩ = .next ⟨c, e.wrote rd (.ofPort e.port.opv)⟩ := rfl
theorem exec_frombit : exec (.frombit rd) ⟨c, e⟩ =
    if c.N ≤ e.port.opa.toNat then .next ⟨c, e.fail .indexOutOfRange⟩
    else .next ⟨c, e.wrote rd (.single e.port.opa.toNat)⟩ := rfl
theorem exec_copy : exec (.copy rd ra) ⟨c, e⟩ = .next ⟨c, e.wrote rd (e.readReg ra)⟩ := rfl
theorem exec_rdv : exec (.rdv ra) ⟨c, e⟩ =
    .next ⟨c, e.answered { okOnly c with rv := (e.readReg ra).toPort }⟩ := rfl
theorem exec_get : exec (.get ra) ⟨c, e⟩ =
    if c.N ≤ e.port.opa.toNat then .next ⟨c, e.fail .indexOutOfRange⟩
    else .next ⟨c, e.answered { okOnly c with t := (e.readReg ra).bit e.port.opa.toNat }⟩ := rfl
theorem exec_set : exec (.set rd v) ⟨c, e⟩ =
    if c.N ≤ e.port.opa.toNat then .next ⟨c, e.fail .indexOutOfRange⟩
    else .next ⟨c, e.wrote rd ((e.readReg rd).putBit e.port.opa.toNat v)⟩ := rfl
theorem exec_mask : exec (.mask rd v) ⟨c, e⟩ =
    .next ⟨c, e.wrote rd (.rangeMask e.port.opa.toNat e.port.opb.toNat v)⟩ := rfl
theorem exec_setrange : exec (.setrange rd v) ⟨c, e⟩ =
    .next ⟨c, e.wrote rd
      (if v then (e.readReg rd).lanes (· ||| ·) (.rangeMask e.port.opa.toNat e.port.opb.toNat v)
       else (e.readReg rd).lanes (· &&& ·) (.rangeMask e.port.opa.toNat e.port.opb.toNat v))⟩ := rfl
theorem exec_and : exec (.and rd ra rb) ⟨c, e⟩ =
    .next ⟨c, e.wrote rd ((e.readReg ra).lanes (· &&& ·) (e.readReg rb))⟩ := rfl
theorem exec_or : exec (.or rd ra rb) ⟨c, e⟩ =
    .next ⟨c, e.wrote rd ((e.readReg ra).lanes (· ||| ·) (e.readReg rb))⟩ := rfl
theorem exec_xor : exec (.xor rd ra rb) ⟨c, e⟩ =
    .next ⟨c, e.wrote rd ((e.readReg ra).lanes (· ^^^ ·) (e.readReg rb))⟩ := rfl
theorem exec_not : exec (.not rd ra) ⟨c, e⟩ = .next ⟨c, e.wrote rd (e.readReg ra).complement⟩ := rfl
theorem exec_anda : exec (.anda rd rb) ⟨c, e⟩ =
    .next ⟨c, e.wrote rd ((e.readReg rd).lanes (· &&& ·) (e.readReg rb))⟩ := rfl
theorem exec_ora : exec (.ora rd rb) ⟨c, e⟩ =
    .next ⟨c, e.wrote rd ((e.readReg rd).lanes (· ||| ·) (e.readReg rb))⟩ := rfl
theorem exec_xora : exec (.xora rd rb) ⟨c, e⟩ =
    .next ⟨c, e.wrote rd ((e.readReg rd).lanes (· ^^^ ·) (e.readReg rb))⟩ := rfl
theorem exec_nota : exec (.nota rd) ⟨c, e⟩ = .next ⟨c, e.wrote rd (e.readReg rd).complement⟩ := rfl

/-- The end of an addition, by its carry (44_add.md R162). -/
theorem addResult_eq (r : Bitmap c × Nat) : addResult rd ⟨c, e⟩ r =
    .next ⟨c, if r.2 = 1 then e.wroteWithWarning rd r.1 else e.wrote rd r.1⟩ := by
  unfold addResult; split <;> rfl
theorem exec_add : exec (.add rd ra) ⟨c, e⟩ =
    .next ⟨c, if (rippleAdd (e.readReg ra) e.port.opw).2 = 1
      then e.wroteWithWarning rd (rippleAdd (e.readReg ra) e.port.opw).1
      else e.wrote rd (rippleAdd (e.readReg ra) e.port.opw).1⟩ := addResult_eq e rd _
theorem exec_adda : exec (.adda rd) ⟨c, e⟩ =
    .next ⟨c, if (rippleAdd (e.readReg rd) e.port.opw).2 = 1
      then e.wroteWithWarning rd (rippleAdd (e.readReg rd) e.port.opw).1
      else e.wrote rd (rippleAdd (e.readReg rd) e.port.opw).1⟩ := addResult_eq e rd _
theorem exec_eq : exec (.eq ra rb) ⟨c, e⟩ =
    .next ⟨c, e.answered { okOnly c with t := decide ((e.readReg ra).toList = (e.readReg rb).toList) }⟩ := rfl
theorem exec_cmp : exec (.cmp ra rb) ⟨c, e⟩ =
    .next ⟨c, e.answered
      { okOnly c with ord := compareLimbs (e.readReg ra).toList (e.readReg rb).toList }⟩ := rfl
theorem exec_rdst : exec .rdst ⟨c, e⟩ = .next ⟨c, e.answered { okOnly c with sr := statusRead e.status }⟩ := rfl
theorem exec_clrst : exec .clrst ⟨c, e⟩ =
    .next ⟨c, { e with status := statusClear e.status, responses := e.responses ++ [okOnly c] }⟩ := rfl

end

/-! ## What any command can do -/

/-- ADD or ADDA. -/
def IsAddition (i : Instr) : Prop := (∃ rd ra, i = .add rd ra) ∨ ∃ rd, i = .adda rd

/-- A command with an index check. -/
def IsIndexed (i : Instr) : Prop := (∃ ra, i = .get ra) ∨ (∃ rd v, i = .set rd v) ∨ ∃ rd, i = .frombit rd

/-- Every command ends in one of five ways: it writes its destination, it writes it and warns (an addition), it answers
without writing, it fails its index check, or it is CLRST. -/
theorem exec_cases (i : Instr) : ∃ e', exec i ⟨c, e⟩ = .next ⟨c, e'⟩ ∧
    ((∃ rd b, i.rd? = some rd ∧ e' = e.wrote rd b) ∨
     (∃ rd b, IsAddition i ∧ i.rd? = some rd ∧ e' = e.wroteWithWarning rd b) ∨
     (∃ r : Response c, i.rd? = none ∧ r.status = .ok ∧ r.warn = false ∧ e' = e.answered r ∧
        (r.t = true → (∃ ra, i = .get ra) ∨ ∃ ra rb, i = .eq ra rb) ∧
        (r.ord ≠ .equal → ∃ ra rb, i = .cmp ra rb) ∧ (r.sr ≠ 0 → i = .rdst) ∧ (r.rv ≠ 0 → ∃ ra, i = .rdv ra)) ∨
     (IsIndexed i ∧ c.N ≤ e.port.opa.toNat ∧ e' = e.fail .indexOutOfRange) ∨
     (i = .clrst ∧ e' = { e with status := statusClear e.status, responses := e.responses ++ [okOnly c] })) := by
  cases i with
  | frombit rd =>
    rw [exec_frombit]
    split
    · exact ⟨_, rfl, .inr (.inr (.inr (.inl ⟨.inr (.inr ⟨rd, rfl⟩), ‹_›, rfl⟩)))⟩
    · exact ⟨_, rfl, .inl ⟨_, _, rfl, rfl⟩⟩
  | set rd v =>
    rw [exec_set]
    split
    · exact ⟨_, rfl, .inr (.inr (.inr (.inl ⟨.inr (.inl ⟨rd, v, rfl⟩), ‹_›, rfl⟩)))⟩
    · exact ⟨_, rfl, .inl ⟨_, _, rfl, rfl⟩⟩
  | get ra =>
    rw [exec_get]
    split
    · exact ⟨_, rfl, .inr (.inr (.inr (.inl ⟨.inl ⟨ra, rfl⟩, ‹_›, rfl⟩)))⟩
    · exact ⟨_, rfl, .inr (.inr (.inl ⟨_, rfl, rfl, rfl, rfl, by simp [okOnly]⟩))⟩
  | add rd ra =>
    rw [exec_add]
    split
    · exact ⟨_, rfl, .inr (.inl ⟨_, _, .inl ⟨rd, ra, rfl⟩, rfl, rfl⟩)⟩
    · exact ⟨_, rfl, .inl ⟨_, _, rfl, rfl⟩⟩
  | adda rd =>
    rw [exec_adda]
    split
    · exact ⟨_, rfl, .inr (.inl ⟨_, _, .inr ⟨rd, rfl⟩, rfl, rfl⟩)⟩
    · exact ⟨_, rfl, .inl ⟨_, _, rfl, rfl⟩⟩
  | rdv ra => exact ⟨_, exec_rdv e ra, .inr (.inr (.inl ⟨_, rfl, rfl, rfl, rfl, by simp [okOnly]⟩))⟩
  | eq ra rb => exact ⟨_, exec_eq e ra rb, .inr (.inr (.inl ⟨_, rfl, rfl, rfl, rfl, by simp [okOnly]⟩))⟩
  | cmp ra rb => exact ⟨_, exec_cmp e ra rb, .inr (.inr (.inl ⟨_, rfl, rfl, rfl, rfl, by simp [okOnly]⟩))⟩
  | rdst => exact ⟨_, exec_rdst e, .inr (.inr (.inl ⟨_, rfl, rfl, rfl, rfl, by simp [okOnly]⟩))⟩
  | clrst => exact ⟨_, exec_clrst e, .inr (.inr (.inr (.inr ⟨rfl, rfl⟩)))⟩
  | _ => exact ⟨_, rfl, .inl ⟨_, _, rfl, rfl⟩⟩

/-! ## What a step does -/

theorem step_idle (h : e.inputs = []) : step ⟨c, e⟩ = .next ⟨c, e⟩ := by
  simp only [step, takeInput, h]; rfl

theorem step_reset {rest : List (Input c)} (h : e.inputs = .reset :: rest) :
    step ⟨c, e⟩ = .next ⟨c, e.resetEvent rest⟩ := by
  simp only [step, takeInput, h]; rfl

theorem step_command {p : Packet c} {rest : List (Input c)} {i : Instr} (h : e.inputs = .command p :: rest)
    (hd : decode c.R p.cw = .ok i) : step ⟨c, e⟩ = exec i ⟨c, e.accept p rest⟩ := by
  simp only [step, takeInput, h, runPort, accept_port, hd]

theorem step_illegal {p : Packet c} {rest : List (Input c)} {why : Illegal} (h : e.inputs = .command p :: rest)
    (hd : decode c.R p.cw = .error why) :
    step ⟨c, e⟩ = .next ⟨c, (e.accept p rest).fail .illegalCommand⟩ := by
  simp only [step, takeInput, h, runPort, accept_port, hd]; rfl

end Sys2Proof.Machine
end

