-- ==== Sys2Proof/Laws/PerInstr.lean ====
section
/-! SUPPORT. One statement about every command as syntax: its word matches its row of the opcode table (30_encoding.md
R61, R70), and its row says which fields it uses. -/

namespace Sys2Proof.Laws

/-- The encoded word meets the row's mask and match, whatever the fields hold; the row's columns say which fields the
command has. -/
def EncodesItsRow.Statement (i : Instr) : Prop :=
  encode i &&& i.row.mask = i.row.pattern ∧
  i.row.usesRd = i.rd?.isSome ∧ i.row.usesRa = i.ra?.isSome ∧ i.row.usesRb = i.rb?.isSome ∧ i.row.usesV = i.v?.isSome

theorem EncodesItsRow.zero (rd : RegIdx) : EncodesItsRow.Statement (.zero rd) :=
  ⟨(and_mask_eq_pattern _ _).2 (by simp [encode, Instr.row, Instr.rd?, Instr.ra?, Instr.rb?, Instr.v?]), rfl, rfl, rfl, rfl⟩

theorem EncodesItsRow.full (rd : RegIdx) : EncodesItsRow.Statement (.full rd) :=
  ⟨(and_mask_eq_pattern _ _).2 (by simp [encode, Instr.row, Instr.rd?, Instr.ra?, Instr.rb?, Instr.v?]), rfl, rfl, rfl, rfl⟩

theorem EncodesItsRow.new (rd : RegIdx) (v : Bool) : EncodesItsRow.Statement (.new rd v) :=
  ⟨(and_mask_eq_pattern _ _).2 (by simp [encode, Instr.row, Instr.rd?, Instr.ra?, Instr.rb?, Instr.v?]), rfl, rfl, rfl, rfl⟩

theorem EncodesItsRow.ldv (rd : RegIdx) : EncodesItsRow.Statement (.ldv rd) :=
  ⟨(and_mask_eq_pattern _ _).2 (by simp [encode, Instr.row, Instr.rd?, Instr.ra?, Instr.rb?, Instr.v?]), rfl, rfl, rfl, rfl⟩

theorem EncodesItsRow.frombit (rd : RegIdx) : EncodesItsRow.Statement (.frombit rd) :=
  ⟨(and_mask_eq_pattern _ _).2 (by simp [encode, Instr.row, Instr.rd?, Instr.ra?, Instr.rb?, Instr.v?]), rfl, rfl, rfl, rfl⟩

theorem EncodesItsRow.copy (rd ra : RegIdx) : EncodesItsRow.Statement (.copy rd ra) :=
  ⟨(and_mask_eq_pattern _ _).2 (by simp [encode, Instr.row, Instr.rd?, Instr.ra?, Instr.rb?, Instr.v?]), rfl, rfl, rfl, rfl⟩

theorem EncodesItsRow.rdv (ra : RegIdx) : EncodesItsRow.Statement (.rdv ra) :=
  ⟨(and_mask_eq_pattern _ _).2 (by simp [encode, Instr.row, Instr.rd?, Instr.ra?, Instr.rb?, Instr.v?]), rfl, rfl, rfl, rfl⟩

theorem EncodesItsRow.get (ra : RegIdx) : EncodesItsRow.Statement (.get ra) :=
  ⟨(and_mask_eq_pattern _ _).2 (by simp [encode, Instr.row, Instr.rd?, Instr.ra?, Instr.rb?, Instr.v?]), rfl, rfl, rfl, rfl⟩

theorem EncodesItsRow.set (rd : RegIdx) (v : Bool) : EncodesItsRow.Statement (.set rd v) :=
  ⟨(and_mask_eq_pattern _ _).2 (by simp [encode, Instr.row, Instr.rd?, Instr.ra?, Instr.rb?, Instr.v?]), rfl, rfl, rfl, rfl⟩

theorem EncodesItsRow.mask (rd : RegIdx) (v : Bool) : EncodesItsRow.Statement (.mask rd v) :=
  ⟨(and_mask_eq_pattern _ _).2 (by simp [encode, Instr.row, Instr.rd?, Instr.ra?, Instr.rb?, Instr.v?]), rfl, rfl, rfl, rfl⟩

theorem EncodesItsRow.setrange (rd : RegIdx) (v : Bool) : EncodesItsRow.Statement (.setrange rd v) :=
  ⟨(and_mask_eq_pattern _ _).2 (by simp [encode, Instr.row, Instr.rd?, Instr.ra?, Instr.rb?, Instr.v?]), rfl, rfl, rfl, rfl⟩

theorem EncodesItsRow.and (rd ra rb : RegIdx) : EncodesItsRow.Statement (.and rd ra rb) :=
  ⟨(and_mask_eq_pattern _ _).2 (by simp [encode, Instr.row, Instr.rd?, Instr.ra?, Instr.rb?, Instr.v?]), rfl, rfl, rfl, rfl⟩

theorem EncodesItsRow.or (rd ra rb : RegIdx) : EncodesItsRow.Statement (.or rd ra rb) :=
  ⟨(and_mask_eq_pattern _ _).2 (by simp [encode, Instr.row, Instr.rd?, Instr.ra?, Instr.rb?, Instr.v?]), rfl, rfl, rfl, rfl⟩

theorem EncodesItsRow.xor (rd ra rb : RegIdx) : EncodesItsRow.Statement (.xor rd ra rb) :=
  ⟨(and_mask_eq_pattern _ _).2 (by simp [encode, Instr.row, Instr.rd?, Instr.ra?, Instr.rb?, Instr.v?]), rfl, rfl, rfl, rfl⟩

theorem EncodesItsRow.not (rd ra : RegIdx) : EncodesItsRow.Statement (.not rd ra) :=
  ⟨(and_mask_eq_pattern _ _).2 (by simp [encode, Instr.row, Instr.rd?, Instr.ra?, Instr.rb?, Instr.v?]), rfl, rfl, rfl, rfl⟩

theorem EncodesItsRow.anda (rd rb : RegIdx) : EncodesItsRow.Statement (.anda rd rb) :=
  ⟨(and_mask_eq_pattern _ _).2 (by simp [encode, Instr.row, Instr.rd?, Instr.ra?, Instr.rb?, Instr.v?]), rfl, rfl, rfl, rfl⟩

theorem EncodesItsRow.ora (rd rb : RegIdx) : EncodesItsRow.Statement (.ora rd rb) :=
  ⟨(and_mask_eq_pattern _ _).2 (by simp [encode, Instr.row, Instr.rd?, Instr.ra?, Instr.rb?, Instr.v?]), rfl, rfl, rfl, rfl⟩

theorem EncodesItsRow.xora (rd rb : RegIdx) : EncodesItsRow.Statement (.xora rd rb) :=
  ⟨(and_mask_eq_pattern _ _).2 (by simp [encode, Instr.row, Instr.rd?, Instr.ra?, Instr.rb?, Instr.v?]), rfl, rfl, rfl, rfl⟩

theorem EncodesItsRow.nota (rd : RegIdx) : EncodesItsRow.Statement (.nota rd) :=
  ⟨(and_mask_eq_pattern _ _).2 (by simp [encode, Instr.row, Instr.rd?, Instr.ra?, Instr.rb?, Instr.v?]), rfl, rfl, rfl, rfl⟩

theorem EncodesItsRow.add (rd ra : RegIdx) : EncodesItsRow.Statement (.add rd ra) :=
  ⟨(and_mask_eq_pattern _ _).2 (by simp [encode, Instr.row, Instr.rd?, Instr.ra?, Instr.rb?, Instr.v?]), rfl, rfl, rfl, rfl⟩

theorem EncodesItsRow.adda (rd : RegIdx) : EncodesItsRow.Statement (.adda rd) :=
  ⟨(and_mask_eq_pattern _ _).2 (by simp [encode, Instr.row, Instr.rd?, Instr.ra?, Instr.rb?, Instr.v?]), rfl, rfl, rfl, rfl⟩

theorem EncodesItsRow.eq (ra rb : RegIdx) : EncodesItsRow.Statement (.eq ra rb) :=
  ⟨(and_mask_eq_pattern _ _).2 (by simp [encode, Instr.row, Instr.rd?, Instr.ra?, Instr.rb?, Instr.v?]), rfl, rfl, rfl, rfl⟩

theorem EncodesItsRow.cmp (ra rb : RegIdx) : EncodesItsRow.Statement (.cmp ra rb) :=
  ⟨(and_mask_eq_pattern _ _).2 (by simp [encode, Instr.row, Instr.rd?, Instr.ra?, Instr.rb?, Instr.v?]), rfl, rfl, rfl, rfl⟩

theorem EncodesItsRow.rdst : EncodesItsRow.Statement (.rdst) :=
  ⟨(and_mask_eq_pattern _ _).2 (by simp [encode, Instr.row, Instr.rd?, Instr.ra?, Instr.rb?, Instr.v?]), rfl, rfl, rfl, rfl⟩

theorem EncodesItsRow.clrst : EncodesItsRow.Statement (.clrst) :=
  ⟨(and_mask_eq_pattern _ _).2 (by simp [encode, Instr.row, Instr.rd?, Instr.ra?, Instr.rb?, Instr.v?]), rfl, rfl, rfl, rfl⟩

end Sys2Proof.Laws
end

