-- ==== Sys2Proof/Laws/RangeMask.lean ====
section
/-! SUPPORT. The range mask bit by bit (42_range_mask.md R131, "Said bit by bit"). -/

namespace Sys2Proof

variable {c : Cfg}

/-- A run of `n` ones shifted up by `m`. -/
theorem getLsbD_run {w n m : Nat} (o : Nat) (ho : o < w) :
    (BitVec.ofNat w ((2 ^ n - 1) * 2 ^ m)).getLsbD o = decide (m ≤ o ∧ o < m + n) := by
  rw [BitVec.getLsbD_ofNat, Nat.testBit_mul_two_pow, Nat.testBit_two_pow_sub_one]
  simp only [ho, decide_true, Bool.true_and]
  by_cases h1 : m ≤ o
  · simp [h1]; omega
  · simp [h1]

/-- One limb of the mask: offset `o` is set exactly when its bit index lies in the range. -/
theorem getLsbD_maskLimb (first e k o : Nat) (ho : o < c.W) :
    (maskLimb c first e k).getLsbD o =
      decide (first ≤ (c.L - 1 - k) * c.W + o ∧ (c.L - 1 - k) * c.W + o < e) := by
  simp only [maskLimb]
  generalize (c.L - 1 - k) * c.W = lo
  split
  · rw [getLsbD_run o ho, decide_eq_decide]
    omega
  · have h0 : (0 : Limb c).getLsbD o = false := by simp
    rw [h0, eq_comm, decide_eq_false_iff_not]
    omega

/-- Bit `i` of `mask_true` is 1 exactly when `begin <= i < min(end, N)` (R131). -/
theorem bit_maskTrue (hc : c.Legal) (first last : Nat) {i : Nat} (hi : i < c.L * c.W) :
    (Bitmap.maskTrue first last : Bitmap c).bit i = decide (first ≤ i ∧ i < min last c.N) := by
  unfold Bitmap.maskTrue
  split
  · rw [bit_zeros, eq_comm, decide_eq_false_iff_not]
    omega
  · rw [Bitmap.bit, word_build, if_pos (hc.widx_lt i), getLsbD_maskLimb _ _ _ _ (hc.boff_lt i),
      ← index_of_widx_boff hi]

/-- Either mask (R130, R132). -/
theorem bit_rangeMask (hc : c.Legal) (first last : Nat) (v : Bool) {i : Nat} (hi : i < c.L * c.W) :
    (Bitmap.rangeMask first last v : Bitmap c).bit i = if first ≤ i ∧ i < min last c.N then v else !v := by
  cases v
  · rw [Bitmap.rangeMask, if_neg (by simp), bit_complement hc, bit_maskTrue hc first last hi]
    by_cases h : first ≤ i ∧ i < min last c.N <;> simp [h]
  · rw [Bitmap.rangeMask, if_pos rfl, bit_maskTrue hc first last hi]
    by_cases h : first ≤ i ∧ i < min last c.N <;> simp [h]

end Sys2Proof
end

