-- ==== Sys2Proof/Tests/Slice0.lean ====
section
/-! SUPPORT. Tests. Expected values are those of spec/95_test_vectors.md (its section is named at each group), which the
spec worked out from its rules by hand, and of the examples of the rules themselves; none is this model's own answer. The
last part is the witnesses: for each obligation with hypotheses, operands that meet all of them. -/

namespace Sys2Proof.Tests

open Sys2Proof Sys2Proof.Machine

/-! ## Helpers -/

/-- The packet of configuration `c` with these parts. -/
def packet (c : Cfg) (cw : BitVec 32) (opa opb opw opv : Nat) : Packet c :=
  ⟨cw, BitVec.ofNat _ opa, BitVec.ofNat _ opb, BitVec.ofNat _ opw, BitVec.ofNat _ opv⟩

/-- The engine with the listed registers loaded (index 0 first) and the given STATUS. -/
def loaded (c : Cfg) (regs : List (RegIdx × List Nat)) (st : BitVec 8) : Engine c :=
  { regs.foldl (fun e x => e.writeReg x.1 (.build fun k => BitVec.ofNat _ (x.2[k]?.getD 0))) (Engine.reset c) with
    status := st }

/-- One step on packet `p` from engine `e`: register `r`, the header and `rv` of the last response, STATUS. -/
def run {c : Cfg} (e : Engine c) (p : Packet c) (r : Nat) : Option (List Nat × BitVec 16 × Nat × BitVec 8) :=
  match step ⟨c, { e with inputs := [.command p] }⟩ with
  | .next t =>
    match t.eng.regs[r]?, t.eng.responses.getLast? with
    | some b, some a => some (b.toList.map BitVec.toNat, a.header, a.rv.toNat, t.eng.status)
    | _, _ => none
  | .fault _ => none
  | .refused _ => none

/-- The next state of an outcome that has one. -/
def next? : Host.Outcome State Fault Refusal → Option State
  | .next t => some t
  | .fault _ => none
  | .refused _ => none

/-! ## Well-formedness: each check refuses an ill-formed term (30_encoding.md R75, condition 4; 00_scope.md R6 to R9) -/

theorem test_destination_field_is_checked :
    ([.zero 8, .full 8, .new 8 true, .ldv 8, .frombit 8, .copy 8 0, .set 8 true, .mask 8 true, .setrange 8 true] ++
     [.and 8 0 0, .or 8 0 0, .xor 8 0 0, .not 8 0, .anda 8 0, .ora 8 0, .xora 8 0, .nota 8, .add 8 0, .adda 8] :
      List Instr).all (fun i => !i.wellFormed 8 && i.wellFormed 9) = true := by decide

theorem test_first_source_field_is_checked :
    ([.copy 0 8, .rdv 8, .get 8, .and 0 8 0, .or 0 8 0, .xor 0 8 0, .not 0 8, .add 0 8, .eq 8 0, .cmp 8 0] :
      List Instr).all (fun i => !i.wellFormed 8 && i.wellFormed 9) = true := by decide

theorem test_second_source_field_is_checked :
    ([.and 0 0 8, .or 0 0 8, .xor 0 0 8, .anda 0 8, .ora 0 8, .xora 0 8, .eq 0 8, .cmp 0 8] :
      List Instr).all (fun i => !i.wellFormed 8 && i.wellFormed 9) = true := by decide

theorem test_status_commands_name_no_register : (Instr.rdst.wellFormed 1 && Instr.clrst.wellFormed 1) = true := by decide

theorem test_illegal_configurations_are_refused :
    ¬ Cfg.Legal ⟨0, 20, 8, 32⟩ ∧ ¬ Cfg.Legal ⟨8, 0, 8, 32⟩ ∧ ¬ Cfg.Legal ⟨8, 20, 0, 32⟩ ∧ ¬ Cfg.Legal ⟨8, 20, 17, 32⟩ ∧
    ¬ Cfg.Legal ⟨8, 32, 8, 5⟩ ∧ Cfg.Legal ⟨8, 31, 16, 5⟩ := by decide

theorem test_reference_configurations :
    (cfgA.L, cfgA.P) = (2, 0) ∧ (cfgB.L, cfgB.P) = (3, 4) ∧ (cfgC.L, cfgC.P) = (16, 0) := by decide

/-! ## Decoding (95_test_vectors.md 2.1; each word is written from the bits of R61) -/

theorem test_decode_construction :
    ([(0x00000010, .zero 0), (0x00000711, .full 7), (0x00100212, .new 2 true),
      (0x00000212, .new 2 false), (0x00000513, .ldv 5), (0x00000114, .frombit 1),
      (0x00005615, .copy 6 5), (0x00003016, .rdv 3)] :
      List (BitVec 32 × Instr)).all (fun x => decide (decode 8 x.1 = .ok x.2 ∧ encode x.2 = x.1)) = true := by decide

theorem test_decode_bits_and_ranges :
    ([(0x00005020, .get 5), (0x00100021, .set 0 true), (0x00000021, .set 0 false),
      (0x00100130, .mask 1 true), (0x00000531, .setrange 5 false)] :
      List (BitVec 32 × Instr)).all (fun x => decide (decode 8 x.1 = .ok x.2 ∧ encode x.2 = x.1)) = true := by decide

theorem test_decode_boolean :
    ([(0x00021340, .and 3 1 2), (0x00021341, .or 3 1 2), (0x00055742, .xor 7 5 5),
      (0x00006743, .not 7 6), (0x00050648, .anda 6 5), (0x00020149, .ora 1 2),
      (0x0006074A, .xora 7 6), (0x0000064B, .nota 6)] :
      List (BitVec 32 × Instr)).all (fun x => decide (decode 8 x.1 = .ok x.2 ∧ encode x.2 = x.1)) = true := by decide

theorem test_decode_addition_comparison_status :
    ([(0x00001250, .add 2 1), (0x00000558, .adda 5), (0x00032060, .eq 2 3),
      (0x00010061, .cmp 0 1), (0x00000070, .rdst), (0x00000071, .clrst)] :
      List (BitVec 32 × Instr)).all (fun x => decide (decode 8 x.1 = .ok x.2 ∧ encode x.2 = x.1)) = true := by decide

theorem test_illegal_words :
    ([(0x00000000, .reservedOpcode), (0x000000FF, .reservedOpcode), (0x00000017, .reservedOpcode),
      (0x00000044, .reservedOpcode), (0x00200010, .reservedBits), (0x80000070, .reservedBits),
      (0x00001010, .unusedField), (0x00100010, .unusedField), (0x00010043, .unusedField),
      (0x00001048, .unusedField), (0x00000170, .unusedField), (0x00000810, .absentRegister),
      (0x00089040, .absentRegister)] :
      List (BitVec 32 × Illegal)).all (fun x => decide (decode 8 x.1 = .error x.2)) = true := by decide

theorem test_b8_exists_when_r_is_nine : decode 9 0x00000810 = .ok (.zero 8) := by decide

theorem test_table_has_25_rows_of_distinct_match :
    opcodeTable.length = 25 ∧ (opcodeTable.map (·.pattern)).Nodup := by decide

theorem test_decode_table_word :
    decodeTableWord 32 0x00021340 = some (.and 3 1 2) ∧ decodeTableWord 32 0 = none ∧ decodeTableWord 40 0x10 = none := by
  decide

/-- AND b3, b1, b2, field by field: reserved, v, rb, ra, rd, opcode. -/
theorem test_word_bit_by_bit :
    decode 8 (0b00000000000#11 ++ 0b0#1 ++ 0b0010#4 ++ 0b0001#4 ++ 0b0011#4 ++ 0b01000000#8) = .ok (.and 3 1 2) := by decide

/-! ## The step and the ports -/

theorem test_reset_runs_the_presented_word :
    next? (step (State.reset.withFetchWord 32 0x00000311)) =
      next? (exec (.full 3) ⟨cfgA, { Engine.reset cfgA with port := packet cfgA 0x311 0 0 0 0 }⟩) := by decide

theorem test_idle : next? (step State.reset) = some State.reset := by decide

theorem test_reset_event :
    next? (step ⟨cfgB, { loaded cfgB [(1, [1, 2, 3])] 0x03 with inputs := [.reset] }⟩) = some (State.resetWith cfgB) := by decide

/-! ## Construction, copy, read (95_test_vectors.md 2.2, 40_construct.md) -/

theorem test_zero :
    run (loaded cfgB [(0, [0xa5, 0x5a, 0xc3])] 0x00) (packet cfgB 0x00000010 0 0 0 0) 0 =
      some ([0, 0, 0], 0x0000, 0, 0x00) := by decide

theorem test_full_sets_padding :
    run (loaded cfgB [] 0x00) (packet cfgB 0x00000011 0 0 0 0) 0 =
      some ([0xff, 0xff, 0xff], 0x0000, 0, 0x00) := by decide

theorem test_new_true :
    run (loaded cfgB [] 0x00) (packet cfgB 0x00100012 0 0 0 0) 0 =
      some ([0xff, 0xff, 0xff], 0x0000, 0, 0x00) := by decide

theorem test_new_false :
    run (loaded cfgB [(0, [0xff, 0xff, 0xff])] 0x00) (packet cfgB 0x00000012 0 0 0 0) 0 =
      some ([0, 0, 0], 0x0000, 0, 0x00) := by decide

theorem test_ldv_keeps_padding :
    run (loaded cfgB [] 0x00) (packet cfgB 0x00000013 0 0 0 0xa55ac3) 0 =
      some ([0xa5, 0x5a, 0xc3], 0x0000, 0, 0x00) := by decide

theorem test_frombit_top :
    run (loaded cfgB [] 0x00) (packet cfgB 0x00000014 0x13 0 0 0) 0 =
      some ([8, 0, 0], 0x0000, 0, 0x00) := by decide

theorem test_frombit_out_of_range :
    run (loaded cfgB [(0, [0xff, 0xff, 0xff])] 0x00) (packet cfgB 0x00000014 0x14 0 0 0) 0 =
      some ([0xff, 0xff, 0xff], 0x0001, 0, 0x02) := by decide

theorem test_copy :
    run (loaded cfgA [(1, [1, 2])] 0x00) (packet cfgA 0x00001415 0 0 0 0) 4 =
      some ([1, 2], 0x0000, 0, 0x00) := by decide

theorem test_rdv :
    run (loaded cfgB [(0, [0xa5, 0x5a, 0xc3])] 0x00) (packet cfgB 0x00000016 0 0 0 0) 0 =
      some ([0xa5, 0x5a, 0xc3], 0x0000, 0xa55ac3, 0x00) := by decide

/-! ## Single-bit access (2.3) -/

theorem test_get_one :
    run (loaded cfgA [(0, [0x40, 0])] 0x00) (packet cfgA 0x00000020 0x46 0 0 0) 0 =
      some ([0x40, 0], 0x0010, 0, 0x00) := by decide

theorem test_get_padding_is_out_of_range :
    run (loaded cfgB [(0, [0xf0, 0, 0])] 0x00) (packet cfgB 0x00000020 0x14 0 0 0) 0 =
      some ([0xf0, 0, 0], 0x0001, 0, 0x02) := by decide

theorem test_set_keeps_padding :
    run (loaded cfgB [(0, [0xf0, 0, 0])] 0x00) (packet cfgB 0x00100021 0x13 0 0 0) 0 =
      some ([0xf8, 0, 0], 0x0000, 0, 0x00) := by decide

theorem test_set_false :
    run (loaded cfgA [(0, [0xffffffffffffffff, 0xffffffffffffffff])] 0x00) (packet cfgA 0x00000021 0x40 0 0 0) 0 =
      some ([0xfffffffffffffffe, 0xffffffffffffffff], 0x0000, 0, 0x00) := by decide

/-! ## Range masks (2.4) -/

theorem test_mask_true :
    run (loaded cfgB [] 0x00) (packet cfgB 0x00100030 6 0x12 0 0) 0 =
      some ([3, 0xff, 0xc0], 0x0000, 0, 0x00) := by decide

theorem test_mask_false_inverted :
    run (loaded cfgA [] 0x00) (packet cfgA 0x00000030 0x46 0x3c 0 0) 0 =
      some ([0xffffffffffffffff, 0xffffffffffffffff], 0x0000, 0, 0x00) := by decide

theorem test_mask_clamps :
    run (loaded cfgB [] 0x00) (packet cfgB 0x00100030 0 0x19 0 0) 0 =
      some ([0xf, 0xff, 0xff], 0x0000, 0, 0x00) := by decide

theorem test_setrange_true :
    run (loaded cfgB [(0, [0xa5, 0x5a, 0xc3])] 0x00) (packet cfgB 0x00100031 6 0x12 0 0) 0 =
      some ([0xa7, 0xff, 0xc3], 0x0000, 0, 0x00) := by decide

theorem test_setrange_false :
    run (loaded cfgA [(0, [0x123456789abcdef, 0xf0f0f0f00f0f0f0f])] 0x00) (packet cfgA 0x00000031 0x3c 0x46 0 0) 0 =
      some ([0x123456789abcdc0, 0xf0f0f00f0f0f0f], 0x0000, 0, 0x00) := by decide

/-! ## Boolean algebra (2.5) -/

theorem test_and :
    run (loaded cfgA [(1, [0x123456789abcdef, 0xf0f0f0f00f0f0f0f]), (2, [0xffff0000ffff0000, 0xff00ff00ff00ff])] 0x00) (packet cfgA 0x00021340 0 0 0 0) 3 =
      some ([0x123000089ab0000, 0xf000f0000f000f], 0x0000, 0, 0x00) := by decide

theorem test_and_reads_before_it_writes :
    run (loaded cfgA [(1, [0x123456789abcdef, 0xf0f0f0f00f0f0f0f]), (2, [0xffff0000ffff0000, 0xff00ff00ff00ff])] 0x00) (packet cfgA 0x00021140 0 0 0 0) 1 =
      some ([0x123000089ab0000, 0xf000f0000f000f], 0x0000, 0, 0x00) := by decide

theorem test_or :
    run (loaded cfgA [(1, [0x123456789abcdef, 0xf0f0f0f00f0f0f0f]), (2, [0xffff0000ffff0000, 0xff00ff00ff00ff])] 0x00) (packet cfgA 0x00021341 0 0 0 0) 3 =
      some ([0xffff4567ffffcdef, 0xf0fff0ff0fff0fff], 0x0000, 0, 0x00) := by decide

theorem test_xor :
    run (loaded cfgA [(1, [0x123456789abcdef, 0xf0f0f0f00f0f0f0f]), (2, [0xffff0000ffff0000, 0xff00ff00ff00ff])] 0x00) (packet cfgA 0x00021342 0 0 0 0) 3 =
      some ([0xfedc45677654cdef, 0xf00ff00f0ff00ff0], 0x0000, 0, 0x00) := by decide

theorem test_not_complements_padding :
    run (loaded cfgB [(0, [0xf, 0xff, 0xff])] 0x00) (packet cfgB 0x00000243 0 0 0 0) 2 =
      some ([0xf0, 0, 0], 0x0000, 0, 0x00) := by decide

theorem test_anda :
    run (loaded cfgA [(1, [0x123456789abcdef, 0xf0f0f0f00f0f0f0f]), (2, [0xffff0000ffff0000, 0xff00ff00ff00ff])] 0x00) (packet cfgA 0x00020148 0 0 0 0) 1 =
      some ([0x123000089ab0000, 0xf000f0000f000f], 0x0000, 0, 0x00) := by decide

theorem test_ora :
    run (loaded cfgA [(1, [0x123456789abcdef, 0xf0f0f0f00f0f0f0f]), (2, [0xffff0000ffff0000, 0xff00ff00ff00ff])] 0x00) (packet cfgA 0x00020149 0 0 0 0) 1 =
      some ([0xffff4567ffffcdef, 0xf0fff0ff0fff0fff], 0x0000, 0, 0x00) := by decide

theorem test_xora :
    run (loaded cfgA [(1, [0x123456789abcdef, 0xf0f0f0f00f0f0f0f]), (2, [0xffff0000ffff0000, 0xff00ff00ff00ff])] 0x00) (packet cfgA 0x0002014A 0 0 0 0) 1 =
      some ([0xfedc45677654cdef, 0xf00ff00f0ff00ff0], 0x0000, 0, 0x00) := by decide

theorem test_nota :
    run (loaded cfgA [(1, [0x123456789abcdef, 0xf0f0f0f00f0f0f0f]), (2, [0xffff0000ffff0000, 0xff00ff00ff00ff])] 0x00) (packet cfgA 0x0000014B 0 0 0 0) 1 =
      some ([0xfedcba9876543210, 0xf0f0f0ff0f0f0f0], 0x0000, 0, 0x00) := by decide

/-! ## Addition (2.6) -/

theorem test_add_warns :
    run (loaded cfgA [(1, [0xffffffffffffffff, 0xffffffffffffffff])] 0x00) (packet cfgA 0x00001250 0 0 0xffffffffffffffff 0) 2 =
      some ([0, 0xfffffffffffffffe], 0x0008, 0, 0x01) := by decide

theorem test_add_into_padding_is_silent :
    run (loaded cfgB [(0, [0xf, 0xff, 0xff])] 0x00) (packet cfgB 0x00000150 0 0 1 0) 1 =
      some ([0x10, 0, 0], 0x0000, 0, 0x00) := by decide

theorem test_adda_carry :
    run (loaded cfgA [(0, [0, 0xffffffffffffffff])] 0x00) (packet cfgA 0x00000058 0 0 1 0) 0 =
      some ([1, 0], 0x0000, 0, 0x00) := by decide

theorem test_adda_stops_early :
    run (loaded cfgA [(0, [0xffffffffffffffff, 0])] 0x01) (packet cfgA 0x00000058 0 0 5 0) 0 =
      some ([0xffffffffffffffff, 5], 0x0000, 0, 0x01) := by decide

/-! ## Comparison (2.7) -/

theorem test_eq :
    run (loaded cfgA [(1, [1, 0]), (2, [1, 0])] 0x00) (packet cfgA 0x00021060 0 0 0 0) 1 =
      some ([1, 0], 0x0010, 0, 0x00) := by decide

theorem test_eq_sees_padding :
    run (loaded cfgB [(1, [0xf, 0xff, 0xff]), (2, [0xff, 0xff, 0xff])] 0x00) (packet cfgB 0x00021060 0 0 0 0) 1 =
      some ([0xf, 0xff, 0xff], 0x0000, 0, 0x00) := by decide

theorem test_cmp_first_limb_decides :
    run (loaded cfgA [(1, [0, 0xffffffffffffffff]), (2, [1, 0])] 0x00) (packet cfgA 0x00021061 0 0 0 0) 1 =
      some ([0, 0xffffffffffffffff], 0x0020, 0, 0x00) := by decide

theorem test_cmp_is_unsigned :
    run (loaded cfgA [(1, [0x8000000000000000, 0]), (2, [0x7fffffffffffffff, 0xffffffffffffffff])] 0x00) (packet cfgA 0x00021061 0 0 0 0) 1 =
      some ([0x8000000000000000, 0], 0x0040, 0, 0x00) := by decide

/-! ## Status and errors (2.8) -/

theorem test_rdst :
    run (loaded cfgA [] 0x03) (packet cfgA 0x00000070 0 0 0 0) 0 =
      some ([0, 0], 0x0300, 0, 0x03) := by decide

theorem test_clrst :
    run (loaded cfgA [] 0x03) (packet cfgA 0x00000071 0 0 0 0) 0 =
      some ([0, 0], 0x0000, 0, 0x00) := by decide

theorem test_illegal_wins_over_the_index_check :
    run (loaded cfgA [] 0x03) (packet cfgA 0x00009020 0x1f4 0 0 0) 0 =
      some ([0, 0], 0x0003, 0, 0x07) := by decide

theorem test_latest_failure_stays :
    run (loaded cfgA [] 0x07) (packet cfgA 0x00100021 0x80 0 0 0) 0 =
      some ([0, 0], 0x0001, 0, 0x03) := by decide

/-! ## Text (30_encoding.md R80) -/

theorem test_text :
    asmText (.setrange 5 false) (packet cfgA 0 60 70 0 0) = "SETRANGE b5, 60, 70, 0" ∧
    asmText (.ldv 0) (packet cfgB 0 0 0 0 0xA55AC3) = "LDV b0, [165, 90, 195]" ∧
    responseText (.get 0) ({ okOnly cfgA with t := true }) = "-> OK t=1" ∧
    responseText (.get 0) (Machine.failure cfgA .indexOutOfRange) = "-> INDEX_OUT_OF_RANGE" := by decide

/-! ## Witnesses

`witness_<Obligation>` shows operands that meet all the hypotheses of that obligation together, and for each clause with a
condition of its own a value at the edge of its range. Statements without hypotheses have none. -/

/-- An engine with two loaded registers and OVF set, whose port holds these operand parts. -/
def busy (c : Cfg) (opa opb opw opv : Nat) : Engine c :=
  { loaded c [(6, [0xF0, 0, 1]), (7, [0xFF, 0xFF, 0xFF])] 0x01 with port := packet c 0 opa opb opw opv }

/-- The same engine with one packet presented. -/
def offered (c : Cfg) (p : Packet c) : Engine c := { busy c 0 0 0 0 with inputs := [.command p] }

theorem witness_ResetClearsEveryRegisterAndStatus : ∃ s, s ≠ State.reset ∧ (s = State.reset ∨ ∃ c, s = State.resetWith c) :=
  ⟨State.resetWith cfgB, by decide, .inr ⟨cfgB, rfl⟩⟩

theorem witness_ResetEventRestoresTheResetValues :
    ({ busy cfgB 0 0 0 0 with inputs := [.reset, .reset] } : Engine cfgB).inputs = .reset :: [.reset] := rfl

theorem witness_IdleStepChangesNothing : (busy cfgB 0 0 0 0).inputs = [] := rfl

theorem witness_StepRunsTheDecodedCommand :
    (offered cfgB (packet cfgB 0x00005020 20 0 0 0)).inputs = .command (packet cfgB 0x00005020 20 0 0 0) :: [] ∧
    decode cfgB.R (packet cfgB 0x00005020 20 0 0 0).cw = .ok (.get 5) := ⟨rfl, by decide⟩

theorem witness_IllegalWordIsNotExecuted :
    (offered cfgB (packet cfgB 0x00009020 500 0 0 0)).inputs = .command (packet cfgB 0x00009020 500 0 0 0) :: [] ∧
    decode cfgB.R (packet cfgB 0x00009020 500 0 0 0).cw = .error .absentRegister := ⟨rfl, by decide⟩

theorem witness_PresentedWordIsTheNextCommand : decode cfgB.R 0x0006074A = .ok (.xora 7 6) := by decide

theorem witness_InvariantHoldsAtReset : cfgA.Legal ∧ cfgB.Legal ∧ cfgC.Legal ∧ Cfg.Legal ⟨1, 1, 1, 1⟩ := by decide

/-- A state with OVF and ERR set and a failure answered, about to fail again. -/
def failing : State :=
  ⟨cfgB, { offered cfgB (packet cfgB 0x00000020 20 0 0 0) with
    status := 0x07, responses := [Machine.failure cfgB .illegalCommand] }⟩

theorem witness_StepKeepsTheInvariant : failing.Inv ∧ ∃ t, step failing = .next t :=
  ⟨⟨by decide, ⟨by unfold StatusSound; decide, by unfold Response.Sound; decide⟩⟩, _, rfl⟩

theorem witness_DecodeOfEncodeIsTheCommand :
    (Instr.and 7 0 7).wellFormed 8 = true ∧ (Instr.and 15 15 15).wellFormed 16 = true := by decide

theorem witness_EncodeOfDecodeIsTheWord : decode 8 0x00070740 = .ok (.and 7 0 7) := by decide

theorem witness_CommandWordIsReadByItsRowAndFields :
    (Instr.copy 0 0).row ∈ opcodeTable ∧ decode 8 0x00007715 = .ok (.copy 7 7) ∧
    0x00007715 &&& (Instr.copy 0 0).row.mask = (Instr.copy 0 0).row.pattern ∧
    0x00007815 &&& (Instr.copy 0 0).row.mask = (Instr.copy 0 0).row.pattern ∧
    decode 8 0x00007815 = .error .absentRegister := by decide

theorem witness_WordIsIllegalExactlyOnTheFourConditions :
    decode 8 0x00000072 = .error .reservedOpcode ∧ decode 8 0x00200071 = .error .reservedBits ∧
    decode 8 0x00001043 = .ok (.not 0 1) ∧ decode 8 0x00010043 = .error .unusedField ∧
    decode 8 0x00007060 = .ok (.eq 7 0) ∧ decode 8 0x00008060 = .error .absentRegister := by decide

theorem witness_UnusedOperandPartsAreIgnored :
    (packet cfgB 0x00005020 19 1 2 3).cw = (packet cfgB 0x00005020 19 4 5 6).cw ∧
    ∀ i, decode cfgB.R (packet cfgB 0x00005020 19 1 2 3).cw = .ok i →
      (.opa ∈ i.ports → (packet cfgB 0x00005020 19 1 2 3).opa = (packet cfgB 0x00005020 19 4 5 6).opa) ∧
      (.opb ∈ i.ports → (packet cfgB 0x00005020 19 1 2 3).opb = (packet cfgB 0x00005020 19 4 5 6).opb) ∧
      (.opw ∈ i.ports → (packet cfgB 0x00005020 19 1 2 3).opw = (packet cfgB 0x00005020 19 4 5 6).opw) ∧
      (.opv ∈ i.ports → (packet cfgB 0x00005020 19 1 2 3).opv = (packet cfgB 0x00005020 19 4 5 6).opv) := by
  refine ⟨rfl, fun i h => ?_⟩
  have hd : decode cfgB.R (packet cfgB 0x00005020 19 1 2 3).cw = .ok (.get 5) := by decide
  rw [hd] at h
  cases h
  decide

theorem witness_BitIndexNamesOneBitOfOneLimb : cfgB.Legal ∧ 0 < cfgB.N ∧ 19 < cfgB.N := by decide

theorem witness_BitmapIsABigEndianNumber : cfgB.Legal ∧ 23 < cfgB.L * cfgB.W := by decide

theorem witness_LoadedVectorReadsBackByBitAndWhole :
    cfgB.Legal ∧ (7 : RegIdx).toNat < cfgB.R ∧ (packet cfgB 0 19 0 0 0).opa.toNat < cfgB.N := by decide

theorem witness_ZeroFullAndNewConstruct : (7 : RegIdx).toNat < cfgB.R := by decide

theorem witness_LdvLoadsTheVectorOperand : (7 : RegIdx).toNat < cfgB.R ∧ 2 < cfgB.L := by decide

theorem witness_FrombitSetsOneBitOrFails :
    cfgB.Legal ∧ (7 : RegIdx).toNat < cfgB.R ∧ (busy cfgB 19 0 0 0).port.opa.toNat < cfgB.N ∧
    cfgB.N ≤ (busy cfgB 20 0 0 0).port.opa.toNat := by decide

theorem witness_CopyDuplicatesTheSource : (7 : RegIdx).toNat < cfgB.R ∧ (6 : RegIdx).toNat < cfgB.R := by decide

theorem witness_RdvReturnsTheStoredLimbs : cfgB.Legal ∧ (7 : RegIdx).toNat < cfgB.R := by decide

theorem witness_GetReadsTheIndexedBitOrFails :
    cfgB.Legal ∧ (7 : RegIdx).toNat < cfgB.R ∧ (busy cfgB 19 0 0 0).port.opa.toNat < cfgB.N ∧
    cfgB.N ≤ (busy cfgB 20 0 0 0).port.opa.toNat := by decide

theorem witness_SetChangesTheIndexedBitOrFails :
    cfgB.Legal ∧ (7 : RegIdx).toNat < cfgB.R ∧ (busy cfgB 19 0 0 0).port.opa.toNat < cfgB.N ∧
    cfgB.N ≤ (busy cfgB 20 0 0 0).port.opa.toNat ∧ 23 < cfgB.L * cfgB.W := by decide

theorem witness_GetAfterSetSeesTheBit :
    cfgB.Legal ∧ (7 : RegIdx).toNat < cfgB.R ∧ (busy cfgB 19 0 0 0).port.opa.toNat < cfgB.N ∧
    (packet cfgB 0 19 0 0 0).opa.toNat < cfgB.N ∧ (packet cfgB 0 0 0 0 0).opa.toNat < cfgB.N := by decide

/-- The last bit inside the range, the first above it, and a padding bit. -/
theorem witness_MaskHoldsTheHalfOpenRange :
    cfgB.Legal ∧ (7 : RegIdx).toNat < cfgB.R ∧
    (∀ j, j ∈ [6, 17] → (busy cfgB 6 18 0 0).port.opa.toNat ≤ j ∧ j < min (busy cfgB 6 18 0 0).port.opb.toNat cfgB.N) ∧
    ¬ (18 < min (busy cfgB 6 18 0 0).port.opb.toNat cfgB.N) ∧ ¬ (20 < min (busy cfgB 0 25 0 0).port.opb.toNat cfgB.N) ∧
    20 < cfgB.L * cfgB.W := by decide

theorem witness_SetrangeChangesOnlyTheRange :
    cfgB.Legal ∧ (7 : RegIdx).toNat < cfgB.R ∧
    (∀ j, j ∈ [0, 19] → (busy cfgB 0 25 0 0).port.opa.toNat ≤ j ∧ j < min (busy cfgB 0 25 0 0).port.opb.toNat cfgB.N) ∧
    ¬ (20 < min (busy cfgB 0 25 0 0).port.opb.toNat cfgB.N) ∧ 20 < cfgB.L * cfgB.W := by decide

theorem witness_MaskRoundTrip : (7 : RegIdx).toNat < cfgB.R := by decide

theorem witness_ValueReturningBooleansWorkLimbByLimb :
    (5 : RegIdx).toNat < cfgB.R ∧ (6 : RegIdx).toNat < cfgB.R ∧ (7 : RegIdx).toNat < cfgB.R := by decide

theorem witness_InPlaceBooleansWorkLimbByLimb : (6 : RegIdx).toNat < cfgB.R ∧ (7 : RegIdx).toNat < cfgB.R := by decide

theorem witness_BooleanAlgebraLaws :
    (5 : RegIdx).toNat < cfgB.R ∧ (6 : RegIdx).toNat < cfgB.R ∧ (7 : RegIdx).toNat < cfgB.R := by decide

/-- With the largest register value a scalar of 0 does not reach `2^(L*W)` and a scalar of 1 does. -/
theorem witness_AdditionIsModularWithOverflowWarning :
    cfgB.Legal ∧ (6 : RegIdx).toNat < cfgB.R ∧ ∃ h : (7 : RegIdx).toNat < cfgB.R,
      ¬ 2 ^ (cfgB.L * cfgB.W) ≤ ((busy cfgB 0 0 0 0).regs[(7 : RegIdx).toNat]).numeral + (busy cfgB 0 0 0 0).port.opw.toNat ∧
      2 ^ (cfgB.L * cfgB.W) ≤ ((busy cfgB 0 0 1 0).regs[(7 : RegIdx).toNat]).numeral + (busy cfgB 0 0 1 0).port.opw.toNat := by
  decide

/-- A carry that leaves limb 0, and one that the middle limb takes. -/
theorem witness_CarryRipplesThroughFullLimbsOnly :
    cfgB.Legal ∧ ∃ h6 : (6 : RegIdx).toNat < cfgB.R, ∃ h7 : (7 : RegIdx).toNat < cfgB.R,
      ((busy cfgB 0 0 1 0).regs[(7 : RegIdx).toNat]).CarriesOutOf (busy cfgB 0 0 1 0).port.opw 0 ∧
      ((busy cfgB 0 0 255 0).regs[(6 : RegIdx).toNat]).CarriesOutOf (busy cfgB 0 0 255 0).port.opw 2 ∧
      ¬ ((busy cfgB 0 0 255 0).regs[(6 : RegIdx).toNat]).CarriesOutOf (busy cfgB 0 0 255 0).port.opw 1 := by
  decide

theorem witness_EqComparesEveryLimb : (6 : RegIdx).toNat < cfgB.R ∧ (7 : RegIdx).toNat < cfgB.R := by decide

theorem witness_CmpOrdersLexicographically : (6 : RegIdx).toNat < cfgB.R ∧ (7 : RegIdx).toNat < cfgB.R := by decide

theorem witness_ComparisonsAgreeWithTheValues : (6 : RegIdx).toNat < cfgB.R ∧ (7 : RegIdx).toNat < cfgB.R := by decide

/-- An addition, its in-place form, another command, and CLRST. -/
theorem witness_OvfIsSetOnlyByOverflowingAdditions :
    cfgB.Legal ∧ (7 : RegIdx).toNat < cfgB.R ∧ (Instr.add 6 7).wellFormed cfgB.R = true ∧
    (Instr.adda 7).wellFormed cfgB.R = true ∧ (Instr.get 7).wellFormed cfgB.R = true ∧
    Instr.clrst.wellFormed cfgB.R = true := by decide

/-- A failing command, a successful one, and CLRST: of one presented packet each. -/
theorem witness_ErrHoldsTheLatestFailure :
    (run (offered cfgB (packet cfgB 0 0 0 0 0)) (packet cfgB 0x00007020 20 0 0 0) 0).map (·.2.1) = some 1 ∧
    (run (offered cfgB (packet cfgB 0 0 0 0 0)) (packet cfgB 0x00007020 19 0 0 0) 0).map (·.2.1) = some 0x0010 ∧
    decode cfgB.R (packet cfgB 0x00000071 0 0 0 0).cw = .ok .clrst ∧
    (offered cfgB (packet cfgB 0x00000071 0 0 0 0)).inputs = .command (packet cfgB 0x00000071 0 0 0 0) :: [] := by decide

theorem witness_EachCommandGivesOneResponseInOrder :
    ({ busy cfgB 0 0 0 0 with inputs := [.command (packet cfgB 0x70 0 0 0 0), .reset] } : Engine cfgB).inputs =
      .command (packet cfgB 0x70 0 0 0 0) :: [.reset] := rfl

theorem witness_StatusInfluencesNothingButRdst : Instr.adda 7 ≠ .rdst := by decide

/-- Illegal, out of range by one, in range by one. -/
theorem witness_StatusCodeOfEveryCommand :
    (offered cfgB (packet cfgB 0x00008020 20 0 0 0)).inputs = .command (packet cfgB 0x00008020 20 0 0 0) :: [] ∧
    decode cfgB.R (packet cfgB 0x00008020 20 0 0 0).cw = .error .absentRegister ∧
    decode cfgB.R (packet cfgB 0x00007020 20 0 0 0).cw = .ok (.get 7) ∧
    cfgB.N ≤ (packet cfgB 0x00007020 20 0 0 0).opa.toNat ∧ ¬ cfgB.N ≤ (packet cfgB 0x00007020 19 0 0 0).opa.toNat := by decide

theorem witness_FailedCommandWritesNoRegister :
    (offered cfgB (packet cfgB 0x00000714 20 0 0 0)).inputs = .command (packet cfgB 0x00000714 20 0 0 0) :: [] ∧
    (run (busy cfgB 0 0 0 0) (packet cfgB 0x00000714 20 0 0 0) 7).map (·.2.1) = some 1 := by decide

/-- A command that produces each field: RDST, RDV and one that fails; the others are in the tests above. -/
theorem witness_ResponseHoldsOnlyWhatTheCommandProduces :
    (offered cfgB (packet cfgB 0x00000070 0 0 0 0)).inputs = .command (packet cfgB 0x00000070 0 0 0 0) :: [] ∧
    (run (busy cfgB 0 0 0 0) (packet cfgB 0x00000070 0 0 0 0) 0).map (·.2.1) = some 0x0100 ∧
    (run (busy cfgB 0 0 0 0) (packet cfgB 0x00007016 0 0 0 0) 0).map (·.2.2.1) = some 0xFFFFFF ∧
    (run (busy cfgB 0 0 0 0) (packet cfgB 0x00007020 20 0 0 0) 0).map (·.2.1) = some 1 := by decide

/-- GET on both sides of the capacity. -/
theorem witness_ReadsHaveNoSideEffect :
    ((∃ ra, Instr.get 7 = .get ra) ∨ (∃ ra, Instr.get 7 = .rdv ra) ∨ (∃ ra rb, Instr.get 7 = .eq ra rb) ∨
      (∃ ra rb, Instr.get 7 = .cmp ra rb) ∨ Instr.get 7 = .rdst) ∧
    (busy cfgB 19 0 0 0).port.opa.toNat < cfgB.N ∧ cfgB.N ≤ (busy cfgB 20 0 0 0).port.opa.toNat :=
  ⟨.inl ⟨7, rfl⟩, by decide, by decide⟩

/-- The lowest and the highest padding bit; the last index FROMBIT takes and the first it fails on. -/
theorem witness_PaddingBitsAfterEachCommand :
    cfgB.Legal ∧ (5 : RegIdx).toNat < cfgB.R ∧ (6 : RegIdx).toNat < cfgB.R ∧ (7 : RegIdx).toNat < cfgB.R ∧
    (∀ j, j ∈ [20, 23] → cfgB.N ≤ j ∧ j < cfgB.L * cfgB.W) ∧ (busy cfgB 19 0 0 0).port.opa.toNat < cfgB.N ∧
    cfgB.N ≤ (busy cfgB 20 0 0 0).port.opa.toNat := by decide

theorem witness_HostRestoresPaddingAfterNot :
    cfgB.Legal ∧ (5 : RegIdx).toNat < cfgB.R ∧ (6 : RegIdx).toNat < cfgB.R ∧ (7 : RegIdx).toNat < cfgB.R ∧
    (5 : RegIdx) ≠ 6 ∧ (packet cfgB 0 0 20 0 0).opa.toNat = 0 ∧ (packet cfgB 0 0 20 0 0).opb.toNat = cfgB.N ∧
    19 < cfgB.N ∧ 23 < cfgB.L * cfgB.W := by decide

end Sys2Proof.Tests
end

section
/-! Proofs of the statements about reset and about who sets and who reads STATUS (10_state.md R28, R30, R32). -/

namespace Sys2Proof.Machine

/-! ## The reset state (R32) -/

theorem reset_regs_getElem (c : Cfg) {r k : Nat} (hr : r < c.R) (hk : k < c.L) : (Engine.reset c).regs[r][k] = 0 := by
  simp [Engine.reset]

/-- OVF, ERR and the reserved bits of a STATUS of 0 (R27). -/
theorem statusFields_zero : statusOvf 0 = false ∧ statusErr 0 = 0 ∧ statusReserved 0 = 0 := by decide

/-- Settles O1: `State.reset` is the reset state of CFG-A, and every configuration resets to zeros. -/
theorem resetClearsEveryRegisterAndStatus : Obligations.ResetClearsEveryRegisterAndStatus := by
  intro s hs
  obtain ⟨c, rfl⟩ : ∃ c, s = State.resetWith c := hs.elim (fun h => ⟨cfgA, h⟩) id
  exact ⟨fun r hr k hk => reset_regs_getElem c hr hk, statusFields_zero⟩

/-! ## Who sets STATUS.OVF (R28)

A step has one outcome, so what a command leaves in OVF can be said of any `e'` it is known to end in. -/

section
variable {c : Cfg} {e e' : Engine c} {i : Instr}

/-- The engine a command ends in is determined. -/
theorem engine_unique {o : Host.Outcome State Fault Refusal} (h : o = .next ⟨c, e⟩) (h' : o = .next ⟨c, e'⟩) : e = e' := by
  simpa using h.symm.trans h'

/-- The sticky flag after an addition: as it was, or set by a carry out of the most significant limb. -/
theorem statusOvf_of_addResult (hc : c.Legal) {rd : RegIdx} {x : Bitmap c}
    (h : addResult rd ⟨c, e⟩ (rippleAdd x e.port.opw) = .next ⟨c, e'⟩) :
    statusOvf e'.status = true ↔ statusOvf e.status = true ∨ x.CarriesOutOf e.port.opw 0 := by
  obtain ⟨-, hcarry⟩ := rippleAdd_limbs hc x e.port.opw
  obtain rfl := engine_unique (addResult_eq e rd _) h
  rw [← hcarry]
  split
  · exact iff_of_true (statusOvf_setOvf e.status) (.inr ‹_›)
  · exact (or_iff_left ‹_›).symm

/-- ADD adds to its first source, ADDA to its destination. -/
theorem statusOvf_of_addition (hc : c.Legal) {rd ra : RegIdx} (hi : i = .add rd ra ∨ (i = .adda rd ∧ ra = rd))
    (h : exec i ⟨c, e⟩ = .next ⟨c, e'⟩) :
    statusOvf e'.status = true ↔ statusOvf e.status = true ∨ (e.readReg ra).CarriesOutOf e.port.opw 0 := by
  obtain rfl | ⟨rfl, rfl⟩ := hi
  · exact statusOvf_of_addResult hc h
  · exact statusOvf_of_addResult hc h

theorem statusOvf_of_clrst (h : exec .clrst ⟨c, e⟩ = .next ⟨c, e'⟩) : statusOvf e'.status = false := by
  obtain rfl := engine_unique (exec_clrst e) h
  exact statusOvf_clear _

/-- No command but an addition and CLRST writes OVF; a failing one writes ERR only. -/
theorem statusOvf_of_not_addition (hadd : ¬ IsAddition i) (hclr : i ≠ .clrst) (h : exec i ⟨c, e⟩ = .next ⟨c, e'⟩) :
    statusOvf e'.status = statusOvf e.status := by
  obtain ⟨d, hd, hcases⟩ := exec_cases e i
  obtain rfl := engine_unique hd h
  obtain ⟨rd, b, -, rfl⟩ | ⟨-, -, hi, -⟩ | ⟨r, -, -, -, rfl, -⟩ | ⟨-, -, rfl⟩ | ⟨hi, -⟩ := hcases
  · rfl
  · exact absurd hi hadd
  · rfl
  · exact statusOvf_setErr _ _
  · exact absurd hi hclr

end

/-- Settles O43: each clause is the OVF rule of one kind of command, an addition, CLRST or any other. -/
theorem ovfIsSetOnlyByOverflowingAdditions : Obligations.OvfIsSetOnlyByOverflowingAdditions := by
  intro c hc e i _
  obtain ⟨e', he, -⟩ := exec_cases e i
  refine ⟨e', he, fun rd ra ha hi => ?_, fun hadd hadda hclr => ?_, ?_⟩
  · rw [← readReg_present e ra ha]
    exact statusOvf_of_addition hc hi he
  · have hnot : ¬ IsAddition i := by
      rintro (⟨rd, ra, h⟩ | ⟨rd, h⟩)
      · exact hadd rd ra h
      · exact hadda rd h
    exact statusOvf_of_not_addition hnot hclr he
  · rintro rfl
    exact statusOvf_of_clrst he

/-! ## Who reads STATUS (R30) -/

/-- `run` writes the same registers and sends the same response on `e` and on `e` with another STATUS. -/
def IgnoresStatus {c : Cfg} (e : Engine c) (st : BitVec 8) (run : State → Host.Outcome State Fault Refusal) : Prop :=
  ∃ e1 e2 r, run ⟨c, e⟩ = .next ⟨c, e1⟩ ∧ run ⟨c, { e with status := st }⟩ = .next ⟨c, e2⟩ ∧
    e1.regs = e2.regs ∧ e1.responses = e.responses ++ [r] ∧ e2.responses = e.responses ++ [r]

section
variable {c : Cfg} (e : Engine c) (st : BitVec 8)

theorem failWith_ignoresStatus (k : StatusCode) : IgnoresStatus e st (failWith k) :=
  ⟨_, _, _, rfl, rfl, rfl, rfl, rfl⟩

/-- The index check looks at the port and the capacity only. -/
theorem checkIndex_ignoresStatus {run : State → Host.Outcome State Fault Refusal} (h : IgnoresStatus e st run) :
    IgnoresStatus e st fun s => checkIndex s (run s) := by
  by_cases hN : c.N ≤ e.port.opa.toNat
  · simp only [IgnoresStatus, checkIndex_eq, hN, if_true]
    exact failWith_ignoresStatus e st .indexOutOfRange
  · simpa only [IgnoresStatus, checkIndex_eq, hN, if_false] using h

/-- An addition may set OVF, but its sum and its warning are a function of the operands. -/
theorem addResult_ignoresStatus (rd : RegIdx) (x : Bitmap c × Nat) {run : State → Host.Outcome State Fault Refusal}
    (h : run ⟨c, e⟩ = addResult rd ⟨c, e⟩ x)
    (h' : run ⟨c, { e with status := st }⟩ = addResult rd ⟨c, { e with status := st }⟩ x) :
    IgnoresStatus e st run := by
  rw [IgnoresStatus, h, h', addResult_eq, addResult_eq]
  split
  · exact ⟨_, _, _, rfl, rfl, rfl, rfl, rfl⟩
  · exact ⟨_, _, _, rfl, rfl, rfl, rfl, rfl⟩

/-- No command but RDST reads STATUS. Where there is no index check and no addition, one response and one set of registers
serve both engines: they are made from the registers and the port. -/
theorem exec_ignoresStatus {i : Instr} (hi : i ≠ .rdst) : IgnoresStatus e st (exec i) := by
  cases i with
  | rdst => exact absurd rfl hi
  | frombit rd => exact checkIndex_ignoresStatus e st ⟨_, _, _, rfl, rfl, rfl, rfl, rfl⟩
  | get ra => exact checkIndex_ignoresStatus e st ⟨_, _, _, rfl, rfl, rfl, rfl, rfl⟩
  | set rd v => exact checkIndex_ignoresStatus e st ⟨_, _, _, rfl, rfl, rfl, rfl, rfl⟩
  | add rd ra => exact addResult_ignoresStatus e st rd (rippleAdd (e.readReg ra) e.port.opw) rfl rfl
  | adda rd => exact addResult_ignoresStatus e st rd (rippleAdd (e.readReg rd) e.port.opw) rfl rfl
  | _ => exact ⟨_, _, _, rfl, rfl, rfl, rfl, rfl⟩

end

/-- Settles O45: the statement is `IgnoresStatus` of `exec`, written out. -/
theorem statusInfluencesNothingButRdst : Obligations.StatusInfluencesNothingButRdst :=
  fun _ e st _ hi => exec_ignoresStatus e st hi

end Sys2Proof.Machine
end

section
/-! Proofs of the statements about bit addressing and the wide ports (20_memory.md R42, R46). -/

namespace Sys2Proof.Machine

/-! ## The mapping of a bit index (R42) -/

/-- Settles O18: the limb `widx` names exists in a legal configuration, so reading it is indexing the bitmap. -/
theorem bitIndexNamesOneBitOfOneLimb : Obligations.BitIndexNamesOneBitOfOneLimb := by
  intro c hc b i _
  exact ⟨hc.boff_lt i, hc.widx_lt i, congrArg (·.getLsbD (c.boff i)) (word_of_lt b (hc.widx_lt i))⟩

/-! ## Loading, then reading and writing (R46) -/

section
variable {c : Cfg} (e : Engine c) {r : RegIdx}

/-- A register that was written reads as the result. -/
theorem readReg_wrote_self (hr : r.toNat < c.R) (b : Bitmap c) : (e.wrote r b).readReg r = b := by
  rw [← wrote_eq]
  exact (readReg_writeReg e r r b).trans (if_pos ⟨rfl, hr⟩)

/-- The next packet at the port leaves the registers as they are. -/
theorem readReg_withPort (r : RegIdx) (p : Packet c) : ({ e with port := p } : Engine c).readReg r = e.readReg r := rfl

/-- GET below the capacity (41_bit_access.md R120). -/
theorem exec_get_of_lt (r : RegIdx) (h : e.port.opa.toNat < c.N) : exec (.get r) ⟨c, e⟩ =
    .next ⟨c, e.answered { okOnly c with t := (e.readReg r).bit e.port.opa.toNat }⟩ := by
  rw [exec_get, if_neg (Nat.not_le.mpr h)]

/-- SET below the capacity (41_bit_access.md R121). -/
theorem exec_set_of_lt (r : RegIdx) (v : Bool) (h : e.port.opa.toNat < c.N) : exec (.set r v) ⟨c, e⟩ =
    .next ⟨c, e.wrote r ((e.readReg r).putBit e.port.opa.toNat v)⟩ := by
  rw [exec_set, if_neg (Nat.not_le.mpr h)]

/-- RDV right after a command that wrote the register returns what was written, on the port. -/
theorem exec_rdv_wrote (hr : r.toNat < c.R) (b : Bitmap c) : exec (.rdv r) ⟨c, e.wrote r b⟩ =
    .next ⟨c, (e.wrote r b).answered { okOnly c with rv := b.toPort }⟩ := by
  rw [exec_rdv, readReg_wrote_self e hr]

end

/-- A vector loaded from the port, one bit of it put, and sent back: that bit changed, every other as loaded. -/
theorem getLsbD_toPort_putBit_ofPort {c : Cfg} (hc : c.Legal) (x : BitVec (c.L * c.W)) (v : Bool) {i j : Nat}
    (hi : i < c.L * c.W) (hj : j < c.L * c.W) :
    ((Bitmap.ofPort x).putBit i v).toPort.getLsbD j = if j = i then v else x.getLsbD j := by
  rw [getLsbD_toPort _ hj, bit_putBit hc _ v hi hj, bit_ofPort hc x hj]

/-- Settles O20: after LDV the register holds `ofPort opv`, whose bits are those of `opv`; RDV, GET and SET then read and
write it through the one mapping of R42. -/
theorem loadedVectorReadsBackByBitAndWhole : Obligations.LoadedVectorReadsBackByBitAndWhole := by
  intro c hc e r hr
  refine ⟨_, exec_ldv e r, ?_, fun p hp => ?_⟩
  · rw [exec_rdv_wrote e hr, toPort_ofPort hc]
  · have hi : p.opa.toNat < c.L * c.W := hp.trans_le hc.capacity_le
    have hloaded : ({ e.wrote r (.ofPort e.port.opv) with port := p } : Engine c).readReg r = .ofPort e.port.opv := by
      rw [readReg_withPort, readReg_wrote_self e hr]
    refine ⟨?_, fun v => ⟨_, _, exec_set_of_lt _ r v hp, exec_rdv_wrote _ hr _, fun j hj => ?_⟩⟩
    · rw [exec_get_of_lt _ r hp, hloaded, bit_ofPort hc _ hi]
    · rw [hloaded]
      exact getLsbD_toPort_putBit_ofPort hc _ v hi hj

end Sys2Proof.Machine
end

section
/-! Proofs of the statements about the command word, the operand parts and the pseudo-instructions (30_encoding.md R61,
R63, R81). -/

namespace Sys2Proof

/-! ## The decoder by the opcode table (R61) -/

section
variable (R : Nat) (i j : Instr)

/-- The row's columns rd, ra, rb and v say which fields the command has. -/
theorem row_uses : i.row.usesRd = i.rd?.isSome ∧ i.row.usesRa = i.ra?.isSome ∧ i.row.usesRb = i.rb?.isSome ∧
    i.row.usesV = i.v?.isSome := by
  cases i <;> exact ⟨rfl, rfl, rfl, rfl⟩

/-- Well-formedness is one bound on each register field the command has (R75, condition 4). -/
theorem wellFormed_iff : i.wellFormed R = true ↔
    (∀ r, i.rd? = some r → r.toNat < R) ∧ (∀ r, i.ra? = some r → r.toNat < R) ∧ ∀ r, i.rb? = some r → r.toNat < R := by
  cases i <;> simp [Instr.wellFormed, RegIdx.present, Instr.rd?, Instr.ra?, Instr.rb?, and_assoc]

/-- An opcode names a command of its row, whatever the other fields hold. -/
theorem exists_commandOf_opcode (rd ra rb : RegIdx) (v : Bool) :
    ∃ i, commandOf j.opcode rd ra rb v = some i ∧ i.row = j.row := by
  cases j <;> exact ⟨_, rfl, rfl⟩

/-- Every row of the opcode table is the row of a command. -/
theorem exists_row_eq_of_mem_opcodeTable {row : Row} (h : row ∈ opcodeTable) : ∃ j : Instr, j.row = row := by
  simp only [opcodeTable, ← List.map_append, List.mem_map] at h
  obtain ⟨j, -, hj⟩ := h
  exact ⟨j, hj⟩

/-- The decoder's zero test of the unused fields, by the row's columns. -/
theorem unusedFieldsZero_iff (cw : BitVec 32) : unusedFieldsZero cw i = true ↔
    (i.row.usesRd = true ∨ rdOf cw = 0) ∧ (i.row.usesRa = true ∨ raOf cw = 0) ∧
      (i.row.usesRb = true ∨ rbOf cw = 0) ∧ (i.row.usesV = true ∨ vOf cw = false) := by
  obtain ⟨hrd, hra, hrb, hv⟩ := row_uses i
  simp [unusedFieldsZero, hrd, hra, hrb, hv, and_assoc]

end

section
variable {R : Nat} {cw : BitVec 32} {i : Instr}

/-- A bound on the field of a command that can only be `x`, by whether the command has the field. -/
theorem forall_field_lt_iff {f : Option RegIdx} {x : RegIdx} (h : f = none ∨ f = some x) :
    (∀ r, f = some r → r.toNat < R) ↔ (f.isSome = true → x.toNat < R) := by
  obtain rfl | rfl := h <;> simp

/-- The command an opcode names is well-formed when the word's fields in the columns of its row are below `R`. -/
theorem wellFormed_commandOf_iff (h : commandOf (opcodeOf cw) (rdOf cw) (raOf cw) (rbOf cw) (vOf cw) = some i) :
    i.wellFormed R = true ↔
      (i.row.usesRd = true → (rdOf cw).toNat < R) ∧ (i.row.usesRa = true → (raOf cw).toNat < R) ∧
        (i.row.usesRb = true → (rbOf cw).toNat < R) := by
  obtain ⟨-, hrd, hra, hrb, -⟩ := commandOf_some h
  obtain ⟨urd, ura, urb, -⟩ := row_uses i
  rw [wellFormed_iff, urd, ura, urb, forall_field_lt_iff hrd, forall_field_lt_iff hra, forall_field_lt_iff hrb]

/-- The converse of `decode_ok`: a word that passes the four tests of R75 decodes. -/
theorem decode_of_commandOf (hc : commandOf (opcodeOf cw) (rdOf cw) (raOf cw) (rbOf cw) (vOf cw) = some i)
    (hr : reservedOf cw = 0) (hu : unusedFieldsZero cw i = true) (hw : i.wellFormed R = true) :
    decode R cw = .ok i := by
  simp [decode, hc, hr, hu, hw]

end

/-- The rule of R61, for the row of the command `j`. -/
theorem exists_decode_of_row_iff (R : Nat) (cw : BitVec 32) (j : Instr) :
    (∃ i, decode R cw = .ok i ∧ i.row = j.row) ↔
      cw &&& j.row.mask = j.row.pattern ∧ (j.row.usesRd = true → (rdOf cw).toNat < R) ∧
        (j.row.usesRa = true → (raOf cw).toNat < R) ∧ (j.row.usesRb = true → (rbOf cw).toNat < R) := by
  constructor
  · rintro ⟨i, hd, hrow⟩
    obtain ⟨hc, hr, hu, hw⟩ := decode_ok hd
    obtain ⟨hop, -⟩ := commandOf_some hc
    obtain ⟨urd, ura, urb, uv⟩ := (unusedFieldsZero_iff i cw).1 hu
    rw [← hrow]
    exact ⟨(and_mask_eq_pattern i cw).2 ⟨hop.symm, urd, ura, urb, uv, hr⟩, (wellFormed_commandOf_iff hc).1 hw⟩
  · rintro ⟨hm, hlt⟩
    obtain ⟨hop, urd, ura, urb, uv, hr⟩ := (and_mask_eq_pattern j cw).1 hm
    obtain ⟨i, hc, hrow⟩ := exists_commandOf_opcode j (rdOf cw) (raOf cw) (rbOf cw) (vOf cw)
    rw [← hop] at hc
    rw [← hrow] at urd ura urb uv hlt
    exact ⟨i, decode_of_commandOf hc hr ((unusedFieldsZero_iff i cw).2 ⟨urd, ura, urb, uv⟩)
      ((wellFormed_commandOf_iff hc).2 hlt), hrow⟩

/-- Settles O13: the rule holds of the row of every command, and a decoded command has the fields of its word. -/
theorem commandWordIsReadByItsRowAndFields : Obligations.CommandWordIsReadByItsRowAndFields := by
  refine fun R cw => ⟨fun row hrow => ?_, fun i hd => decode_ok_fields hd⟩
  obtain ⟨j, rfl⟩ := exists_row_eq_of_mem_opcodeTable hrow
  exact exists_decode_of_row_iff R cw j

end Sys2Proof

namespace Sys2Proof.Machine

/-! ## The operand parts a command does not read (R63) -/

/-- The packets agree on every operand part in `parts`. -/
def Packet.AgreeOn {c : Cfg} (parts : List Part) (p q : Packet c) : Prop :=
  (.opa ∈ parts → p.opa = q.opa) ∧ (.opb ∈ parts → p.opb = q.opb) ∧
    (.opw ∈ parts → p.opw = q.opw) ∧ (.opv ∈ parts → p.opv = q.opv)

/-- `run` does the same on `e` and on `e` with packet `q` at its port, but for the packet kept there. -/
def SameWithPort {c : Cfg} (e : Engine c) (q : Packet c) (run : State → Host.Outcome State Fault Refusal) : Prop :=
  ∃ e', run ⟨c, e⟩ = .next ⟨c, e'⟩ ∧ run ⟨c, { e with port := q }⟩ = .next ⟨c, { e' with port := q }⟩

section
variable {c : Cfg} {e : Engine c} {q : Packet c}

/-- A failure writes STATUS and sends the code, whatever the packet. -/
theorem failWith_sameWithPort (k : StatusCode) : SameWithPort e q (failWith k) := ⟨e.fail k, rfl, rfl⟩

/-- The index check looks at `opa` only. -/
theorem checkIndex_sameWithPort {run : State → Host.Outcome State Fault Refusal} (ha : e.port.opa = q.opa)
    (h : SameWithPort e q run) : SameWithPort e q fun s => checkIndex s (run s) := by
  by_cases hN : c.N ≤ q.opa.toNat
  · simp only [SameWithPort, checkIndex_eq, ha, hN, if_true]
    exact failWith_sameWithPort .indexOutOfRange
  · simpa only [SameWithPort, checkIndex_eq, ha, hN, if_false] using h

/-- An addition with one sum and carry under either packet. -/
theorem addResult_sameWithPort (rd : RegIdx) (x : Bitmap c × Nat) {run : State → Host.Outcome State Fault Refusal}
    (h : run ⟨c, e⟩ = addResult rd ⟨c, e⟩ x)
    (h' : run ⟨c, { e with port := q }⟩ = addResult rd ⟨c, { e with port := q }⟩ x) : SameWithPort e q run := by
  rw [SameWithPort, h, h', addResult_eq, addResult_eq]
  split <;> exact ⟨_, rfl, rfl⟩

/-- A command reads no operand part but those of its row (R70, column "ports"). The commands that read one are the cases
written out: what they compute from it is the same under either packet. -/
theorem exec_sameWithPort (i : Instr) (h : e.port.AgreeOn i.ports q) : SameWithPort e q (exec i) := by
  obtain ⟨ha, hb, hw, hv⟩ := h
  cases i with
  | ldv rd =>
    specialize hv List.mem_cons_self
    exact ⟨_, exec_ldv e rd, by rw [hv]; rfl⟩
  | frombit rd =>
    specialize ha List.mem_cons_self
    exact checkIndex_sameWithPort ha ⟨e.wrote rd (.single q.opa.toNat), by rw [← ha]; rfl, rfl⟩
  | get ra =>
    specialize ha List.mem_cons_self
    exact checkIndex_sameWithPort ha
      ⟨e.answered { okOnly c with t := (e.readReg ra).bit q.opa.toNat }, by rw [← ha]; rfl, rfl⟩
  | set rd v =>
    specialize ha List.mem_cons_self
    exact checkIndex_sameWithPort ha
      ⟨e.wrote rd ((e.readReg rd).putBit q.opa.toNat v), by rw [← ha]; rfl, rfl⟩
  | mask rd v =>
    specialize ha List.mem_cons_self
    specialize hb (List.mem_cons_of_mem _ List.mem_cons_self)
    exact ⟨_, exec_mask e rd v, by rw [ha, hb]; rfl⟩
  | setrange rd v =>
    specialize ha List.mem_cons_self
    specialize hb (List.mem_cons_of_mem _ List.mem_cons_self)
    exact ⟨_, exec_setrange e rd v, by rw [ha, hb]; rfl⟩
  | add rd ra =>
    specialize hw List.mem_cons_self
    exact addResult_sameWithPort rd (rippleAdd (e.readReg ra) q.opw) (by rw [← hw]; rfl) rfl
  | adda rd =>
    specialize hw List.mem_cons_self
    exact addResult_sameWithPort rd (rippleAdd (e.readReg rd) q.opw) (by rw [← hw]; rfl) rfl
  | _ => exact ⟨_, rfl, rfl⟩

end

/-- Settles O16: the word alone says whether it is illegal, and a command it decodes to runs alike under both packets. -/
theorem unusedOperandPartsAreIgnored : Obligations.UnusedOperandPartsAreIgnored := by
  intro c e p q rest hcw hagree
  cases hd : decode c.R p.cw with
  | error why =>
    rw [step_illegal _ rfl hd, step_illegal _ rfl (hcw ▸ hd)]
    exact failWith_sameWithPort (e := e.accept p rest) .illegalCommand
  | ok i =>
    rw [step_command _ rfl hd, step_command _ rfl (hcw ▸ hd)]
    exact exec_sameWithPort (e := e.accept p rest) i (hagree i hd)

/-! ## The pseudo-instructions (R81) -/

/-- "`new(false)`: equivalent to `zero()`". -/
theorem exec_new_false (rd : RegIdx) (s : State) : exec (.new rd false) s = exec (.zero rd) s := rfl

/-- "`full()` / `new(true)`". -/
theorem exec_new_true (rd : RegIdx) (s : State) : exec (.new rd true) s = exec (.full rd) s := rfl

/-- Settles O17: each expansion is the packet `Pseudo.expand` makes. -/
theorem pseudoInstructionsExpandToOneCommand : Obligations.PseudoInstructionsExpandToOneCommand :=
  fun _ rd _ _ s => ⟨⟨rfl, rfl⟩, ⟨rfl, rfl⟩, ⟨rfl, rfl⟩, rfl, exec_new_false rd s, exec_new_true rd s⟩

end Sys2Proof.Machine
end

section
/-! Proofs of the statements about construction, copy and whole-register read (40_construct.md R100 to R106). -/

namespace Sys2Proof

/-! ## The constructed bitmaps, limb by limb -/

section
variable {c : Cfg} {k : Nat}

theorem toNat_getElem_zeros (hk : k < c.L) : ((Bitmap.zeros : Bitmap c)[k]).toNat = 0 := by
  rw [← word_of_lt _ hk, word_zeros]
  exact BitVec.toNat_zero

theorem toNat_getElem_ones (hk : k < c.L) : ((Bitmap.ones : Bitmap c)[k]).toNat = 2 ^ c.W - 1 := by
  rw [← word_of_lt _ hk, word_ones hk, BitVec.toNat_allOnes]

/-- The slice of the vector port that limb `k` is loaded from (R103). -/
theorem getElem_ofPort (v : BitVec (c.L * c.W)) (hk : k < c.L) :
    (Bitmap.ofPort v)[k] = v.extractLsb' ((c.L - 1 - k) * c.W) c.W := by
  rw [← word_of_lt _ hk, word_ofPort v hk]

/-- `t <- ZEROS; t.words[widx(i)] <- 2^boff(i)` (R104): the power of two fits in the limb. -/
theorem toNat_getElem_single (hc : c.Legal) (i : Nat) (hk : k < c.L) :
    ((Bitmap.single i : Bitmap c)[k]).toNat = if k = c.widx i then 2 ^ c.boff i else 0 := by
  rw [← word_of_lt _ hk, Bitmap.single, word_setWord, word_zeros]
  by_cases h : k = c.widx i
  · rw [if_pos ⟨h.symm, hk⟩, if_pos h, BitVec.toNat_twoPow_of_lt (hc.boff_lt i)]
  · rw [if_neg fun h' => h h'.1.symm, if_neg h]
    exact BitVec.toNat_zero

end

end Sys2Proof

namespace Sys2Proof.Machine

/-! ## FROMBIT on either side of the capacity (R104) -/

section
variable {c : Cfg} (e : Engine c) (rd : RegIdx)

theorem exec_frombit_of_lt (h : e.port.opa.toNat < c.N) :
    exec (.frombit rd) ⟨c, e⟩ = .next ⟨c, e.wrote rd (.single e.port.opa.toNat)⟩ := by
  rw [exec_frombit, if_neg (Nat.not_le.mpr h)]

theorem exec_frombit_of_le (h : c.N ≤ e.port.opa.toNat) :
    exec (.frombit rd) ⟨c, e⟩ = .next ⟨c, e.fail .indexOutOfRange⟩ := by
  rw [exec_frombit, if_pos h]

end

/-- Settles O23: below the capacity the register takes `Bitmap.single`, from it up the command is `Engine.fail`. -/
theorem frombitSetsOneBitOrFails : Obligations.FrombitSetsOneBitOrFails := by
  refine fun c hc e rd _ => ⟨rfl, fun hlt => ?_, fun hle => ?_⟩
  · exact ⟨_, fun k hk => toNat_getElem_single hc _ hk, exec_frombit_of_lt e rd hlt⟩
  · exact ⟨_, exec_frombit_of_le e rd hle, fail_failedWith e _⟩

/-! ## RDV and COPY (R105, R106) -/

/-- Settles O25: the response carries `toPort` of the register, which holds each limb in its place and is its value. -/
theorem rdvReturnsTheStoredLimbs : Obligations.RdvReturnsTheStoredLimbs := by
  intro c _ e ra ha
  refine ⟨rfl, (e.regs[ra.toNat]).toPort, fun k hk => extract_toPort _ hk, ?_, ?_⟩
  · rw [toNat_toPort, val_eq_numeral]
  · rw [exec_rdv, readReg_present e ra ha]

/-- Settles O24: a source register the engine has reads as what it stores. -/
theorem copyDuplicatesTheSource : Obligations.CopyDuplicatesTheSource := by
  intro c e rd ra _ ha
  refine ⟨rfl, ?_⟩
  rw [exec_copy, readReg_present e ra ha]

/-! ## ZERO, FULL, NEW and LDV (R100 to R103) -/

/-- Settles O21: the two bitmaps are `ZEROS` and `ONES`. -/
theorem zeroFullAndNewConstruct : Obligations.ZeroFullAndNewConstruct := by
  intro c e rd v _
  refine ⟨rfl, rfl, rfl, .zeros, .ones, fun k hk => ?_, exec_zero e rd, exec_full e rd, exec_new e rd v⟩
  exact ⟨toNat_getElem_zeros hk, toNat_getElem_ones hk⟩

/-- Settles O22: the register takes `ofPort` of the vector operand. -/
theorem ldvLoadsTheVectorOperand : Obligations.LdvLoadsTheVectorOperand :=
  fun _ e rd _ => ⟨rfl, .ofPort e.port.opv, fun _ hk => getElem_ofPort _ hk, exec_ldv e rd⟩

end Sys2Proof.Machine
end

section
/-! Proofs of the statements about single-bit access (41_bit_access.md R120, R121). -/

namespace Sys2Proof.Machine

/-! ## GET and SET from the capacity up -/

section
variable {c : Cfg} (e : Engine c)

theorem exec_get_of_le (ra : RegIdx) (h : c.N ≤ e.port.opa.toNat) :
    exec (.get ra) ⟨c, e⟩ = .next ⟨c, e.fail .indexOutOfRange⟩ := by
  rw [exec_get, if_pos h]

/-- The index check comes before `v` is looked at (R121). -/
theorem exec_set_of_le (rd : RegIdx) (v : Bool) (h : c.N ≤ e.port.opa.toNat) :
    exec (.set rd v) ⟨c, e⟩ = .next ⟨c, e.fail .indexOutOfRange⟩ := by
  rw [exec_set, if_pos h]

end

/-! ## Both sides of the capacity (R120, R121) -/

/-- Settles O27: below the capacity the register takes `putBit` of what it stores, from it up the command is
`Engine.fail`. The indexed bit is one of the `L*W`, so `bit_putBit` speaks of it. -/
theorem setChangesTheIndexedBitOrFails : Obligations.SetChangesTheIndexedBitOrFails := by
  refine fun c hc e rd v hd => ⟨rfl, fun hlt => ?_, fun hle => ?_⟩
  · refine ⟨_, fun j hj => ?_, exec_set_of_lt e rd v hlt⟩
    rw [readReg_present e rd hd, bit_putBit hc _ v (hlt.trans_le hc.capacity_le) hj]
  · exact ⟨_, exec_set_of_le e rd v hle, fail_failedWith e _⟩

/-- Settles O26: below the capacity GET answers `Bitmap.bit` of the register, which R42 places in one limb; from it up the
command is `Engine.fail`. -/
theorem getReadsTheIndexedBitOrFails : Obligations.GetReadsTheIndexedBitOrFails := by
  refine fun c hc e ra ha => ⟨rfl, fun hlt => ?_, fun hle => ?_⟩
  · obtain ⟨-, hk, hbit⟩ := bitIndexNamesOneBitOfOneLimb c hc e.regs[ra.toNat] e.port.opa.toNat hlt
    refine ⟨hk, ?_⟩
    rw [exec_get_of_lt e ra hlt, readReg_present e ra ha, hbit]
  · exact ⟨_, exec_get_of_le e ra hle, fail_failedWith e _⟩

end Sys2Proof.Machine
end

section
/-! Proofs of the statements about range masks (42_range_mask.md R130 to R133). -/

namespace Sys2Proof

/-- What SETRANGE writes (R133), bit by bit: the mask of value `v` holds `v` in the range and `!v` outside it, and `!v` is
the neutral element of the operation that applies it. -/
theorem bit_applyRangeMask {c : Cfg} (hc : c.Legal) (x : Bitmap c) (first last : Nat) (v : Bool) {i : Nat}
    (hi : i < c.L * c.W) :
    (if v then x.lanes (· ||| ·) (.rangeMask first last v) else x.lanes (· &&& ·) (.rangeMask first last v)).bit i =
      if first ≤ i ∧ i < min last c.N then v else x.bit i := by
  cases v with
  | true =>
    rw [if_pos rfl, bit_or hc, bit_rangeMask hc first last true hi]
    split <;> simp
  | false =>
    rw [if_neg Bool.false_ne_true, bit_and hc, bit_rangeMask hc first last false hi]
    split <;> simp

end Sys2Proof

namespace Sys2Proof.Machine

/-- Settles O29: the register takes `rangeMask` of the two index operands. -/
theorem maskHoldsTheHalfOpenRange : Obligations.MaskHoldsTheHalfOpenRange :=
  fun _ hc e rd v _ => ⟨rfl, _, fun _ hj => bit_rangeMask hc _ _ v hj, exec_mask e rd v⟩

/-- Settles O30: the register takes what it stores with the mask of value `v` applied. -/
theorem setrangeChangesOnlyTheRange : Obligations.SetrangeChangesOnlyTheRange := by
  refine fun c hc e rd v hd => ⟨rfl, _, fun j hj => ?_, exec_setrange e rd v⟩
  rw [readReg_present e rd hd, bit_applyRangeMask hc _ _ _ v hj]

end Sys2Proof.Machine
end

section
/-! Proofs of the statements about the boolean commands (43_boolean.md R141 to R148). -/

namespace Sys2Proof

/-! ## The results, limb by limb (R140) -/

section
variable {c : Cfg} {k : Nat}

theorem getElem_lanes (f : Limb c → Limb c → Limb c) (a b : Bitmap c) (hk : k < c.L) :
    (a.lanes f b)[k] = f a[k] b[k] := by
  rw [← word_of_lt _ hk, word_lanes f a b hk, word_of_lt a hk, word_of_lt b hk]

/-- NOT takes each limb from `MAXW`, padding included (R144). -/
theorem toNat_getElem_complement (a : Bitmap c) (hk : k < c.L) :
    (a.complement[k]).toNat = 2 ^ c.W - 1 - (a[k]).toNat := by
  rw [← word_of_lt _ hk, word_complement a hk, word_of_lt a hk, BitVec.toNat_not]

end

end Sys2Proof

namespace Sys2Proof.Machine

/-- Settles O32: the registers take `lanes` and `complement` of what the sources store. -/
theorem valueReturningBooleansWorkLimbByLimb : Obligations.ValueReturningBooleansWorkLimbByLimb := by
  intro c e rd ra rb _ ha hb
  refine ⟨rfl, rfl, rfl, rfl, _, _, _, _, fun k hk => ?_, exec_and e rd ra rb, exec_or e rd ra rb, exec_xor e rd ra rb,
    exec_not e rd ra⟩
  rw [readReg_present e ra ha, readReg_present e rb hb]
  exact ⟨getElem_lanes _ _ _ hk, getElem_lanes _ _ _ hk, getElem_lanes _ _ _ hk, toNat_getElem_complement _ hk⟩

/-! ## The in-place forms name the destination as first source (R145 to R148) -/

section
variable (rd rb : RegIdx) (s : State)

theorem exec_anda_eq_and : exec (.anda rd rb) s = exec (.and rd rd rb) s := rfl
theorem exec_ora_eq_or : exec (.ora rd rb) s = exec (.or rd rd rb) s := rfl
theorem exec_xora_eq_xor : exec (.xora rd rb) s = exec (.xor rd rd rb) s := rfl
theorem exec_nota_eq_not : exec (.nota rd) s = exec (.not rd rd) s := rfl

end

/-- Settles O33: each in-place form is its value-returning form with `ra = rd`, which O32 describes. -/
theorem inPlaceBooleansWorkLimbByLimb : Obligations.InPlaceBooleansWorkLimbByLimb := by
  intro c e rd rb hd hb
  obtain ⟨-, -, -, -, results⟩ := valueReturningBooleansWorkLimbByLimb c e rd rd rb hd hd hb
  refine ⟨rfl, rfl, rfl, rfl, ?_⟩
  rwa [exec_anda_eq_and, exec_ora_eq_or, exec_xora_eq_xor, exec_nota_eq_not]

end Sys2Proof.Machine
end

section
/-! Proofs of the statements about addition (44_add.md R161 to R164). -/

namespace Sys2Proof.Machine

/-- An addition writes the sum that R161 gives limb by limb, and warns when the carry leaves limb 0 (R162). -/
theorem addResult_rippleAdd_limbs {c : Cfg} (hc : c.Legal) (e : Engine c) (rd : RegIdx) (x : Bitmap c) :
    ∃ y : Bitmap c,
      (∀ k (hk : k < c.L), (y[k]).toNat = ((x[k]).toNat +
        (if k = c.L - 1 then e.port.opw.toNat else if x.CarriesOutOf e.port.opw (k + 1) then 1 else 0)) % 2 ^ c.W) ∧
      addResult rd ⟨c, e⟩ (rippleAdd x e.port.opw) = .next ⟨c,
        if x.CarriesOutOf e.port.opw 0 then e.wroteWithWarning rd y else e.wrote rd y⟩ := by
  obtain ⟨hlimbs, hcarry⟩ := rippleAdd_limbs hc x e.port.opw
  refine ⟨(rippleAdd x e.port.opw).1, hlimbs, ?_⟩
  rw [addResult_eq, if_congr hcarry rfl rfl]

/-- Settles O36: ADD adds to what `ra` stores and ADDA to what `rd` stores, by the one walk of R161. -/
theorem carryRipplesThroughFullLimbsOnly : Obligations.CarryRipplesThroughFullLimbsOnly := by
  intro c hc e rd ra hd ha
  rw [← readReg_present e ra ha, ← readReg_present e rd hd]
  exact ⟨rfl, rfl, addResult_rippleAdd_limbs hc e rd (e.readReg ra), addResult_rippleAdd_limbs hc e rd (e.readReg rd)⟩

end Sys2Proof.Machine
end

section
/-! Proofs of the statements about equality and ordering (45_compare.md R170, R171). -/

namespace Sys2Proof.Machine

/-! ## The comparisons of two bitmaps, limb by limb -/

section
variable {c : Cfg} (a b : Bitmap c)

theorem toList_eq_iff_getElem : a.toList = b.toList ↔ ∀ k (hk : k < c.L), a[k] = b[k] :=
  Vector.toList_inj.trans Vector.ext_iff

theorem length_toList_eq : a.toList.length = b.toList.length :=
  a.length_toList.trans b.length_toList.symm

/-- Bitmaps of one value have the same limbs (R44), so CMP's order by value answers equal for no others. -/
theorem compareLimbs_toList_equal : compareLimbs a.toList b.toList = .equal ↔ ∀ k (hk : k < c.L), a[k] = b[k] := by
  obtain ⟨-, -, hval⟩ := compareLimbs_val _ _ (length_toList_eq a b)
  calc compareLimbs a.toList b.toList = .equal
    _ ↔ a.val = b.val := hval
    _ ↔ a = b := ⟨val_inj, congrArg _⟩
    _ ↔ ∀ k (hk : k < c.L), a[k] = b[k] := Vector.ext_iff

theorem compareLimbs_toList_less : compareLimbs a.toList b.toList = .less ↔
    ∃ k, ∃ hk : k < c.L, (∀ j (hj : j < k), a[j] = b[j]) ∧ (a[k]).toNat < (b[k]).toNat := by
  rw [compareLimbs_less _ _ (length_toList_eq a b), Vector.length_toList]
  refine exists_congr fun k => ?_
  rw [← exists_prop]
  refine exists_congr fun hk => and_congr (forall₂_congr fun j hj => ?_) ?_
  · have hjL : j < c.L := hj.trans hk
    simp [hjL]
  · simp [hk]

/-- Greater is less with the operands exchanged. -/
theorem compareLimbs_toList_greater : compareLimbs a.toList b.toList = .greater ↔
    ∃ k, ∃ hk : k < c.L, (∀ j (hj : j < k), a[j] = b[j]) ∧ (b[k]).toNat < (a[k]).toNat := by
  rw [compareLimbs_greater_iff _ _ (length_toList_eq a b), compareLimbs_toList_less]
  exact exists₂_congr fun k _ => and_congr_left' (forall₂_congr fun _ _ => eq_comm)

end

/-! ## EQ and CMP (R170, R171) -/

/-- Settles O38: EQ answers whether the limb lists of the two registers are one list. -/
theorem eqComparesEveryLimb : Obligations.EqComparesEveryLimb := by
  intro c e ra rb ha hb
  rw [← readReg_present e ra ha, ← readReg_present e rb hb]
  exact ⟨rfl, _, exec_eq e ra rb, decide_eq_true_iff.trans (toList_eq_iff_getElem _ _)⟩

/-- Settles O39: CMP answers `compareLimbs` of the two registers, whose three answers are described above. -/
theorem cmpOrdersLexicographically : Obligations.CmpOrdersLexicographically := by
  intro c e ra rb ha hb
  rw [← readReg_present e ra ha, ← readReg_present e rb hb]
  exact ⟨rfl, rfl, rfl, rfl, _, exec_cmp e ra rb, compareLimbs_toList_less _ _, compareLimbs_toList_greater _ _,
    compareLimbs_toList_equal _ _⟩

end Sys2Proof.Machine
end

section
/-! Proofs of the statements about the status commands (46_status.md R180, R181). -/

namespace Sys2Proof.Machine

/-- Settles O41: the response carries `statusRead` of STATUS, the engine is otherwise the one before. -/
theorem rdstReturnsStatusAndKeepsIt : Obligations.RdstReturnsStatusAndKeepsIt :=
  fun _ e => ⟨rfl, statusRead e.status, exec_rdst e, statusRead_fields e.status⟩

/-- Settles O42: STATUS becomes `statusClear` of itself, whose fields are OVF 0, ERR 0 and the reserved bits kept. -/
theorem clrstClearsStatus : Obligations.ClrstClearsStatus :=
  fun _ e => ⟨rfl, statusClear e.status, exec_clrst e,
    statusOvf_clear e.status, statusErr_clear e.status, statusReserved_clear e.status⟩

end Sys2Proof.Machine
end

section
/-! Proofs of the statements about failing commands and their status codes (60_exceptions.md R200 to R211). -/

namespace Sys2Proof.Machine

/-! ## The index check and the commands that complete (R201, R210) -/

section
variable {c : Cfg} (e : Engine c) {i : Instr}

/-- From the capacity up each of GET, SET and FROMBIT fails. -/
theorem exec_indexed_of_le (hi : IsIndexed i) (h : c.N ≤ e.port.opa.toNat) :
    exec i ⟨c, e⟩ = .next ⟨c, e.fail .indexOutOfRange⟩ := by
  obtain ⟨ra, rfl⟩ | ⟨rd, v, rfl⟩ | ⟨rd, rfl⟩ := hi
  · exact exec_get_of_le e ra h
  · exact exec_set_of_le e rd v h
  · exact exec_frombit_of_le e rd h

/-- A command that does not fail the index check answers OK: of the ways a command ends, only that failure does not. -/
theorem exec_ok_of_not_outOfRange (h : ¬ (IsIndexed i ∧ c.N ≤ e.port.opa.toNat)) :
    ∃ e' r, exec i ⟨c, e⟩ = .next ⟨c, e'⟩ ∧ e'.responses = e.responses ++ [r] ∧ r.status = .ok := by
  obtain ⟨e', he, hcases⟩ := exec_cases e i
  obtain ⟨rd, b, -, rfl⟩ | ⟨rd, b, -, -, rfl⟩ | ⟨r, -, hr, -, rfl, -⟩ | ⟨hi, hN, -⟩ | ⟨-, rfl⟩ := hcases
  · exact ⟨_, _, he, rfl, rfl⟩
  · exact ⟨_, _, he, rfl, rfl⟩
  · exact ⟨_, r, he, rfl, hr⟩
  · exact absurd ⟨hi, hN⟩ h
  · exact ⟨_, _, he, rfl, rfl⟩

/-- The step on a packet, in the order of R210: an illegal word fails, then a legal GET, SET or FROMBIT with an index from
the capacity up fails, and every other command answers OK. -/
theorem step_packet_cases {p : Packet c} {rest : List (Input c)} (h : e.inputs = .command p :: rest) :
    (∃ why, decode c.R p.cw = .error why ∧
      step ⟨c, e⟩ = .next ⟨c, (e.accept p rest).fail .illegalCommand⟩) ∨
    (∃ i, decode c.R p.cw = .ok i ∧ IsIndexed i ∧ c.N ≤ p.opa.toNat ∧
      step ⟨c, e⟩ = .next ⟨c, (e.accept p rest).fail .indexOutOfRange⟩) ∨
    (∃ i, decode c.R p.cw = .ok i ∧ ¬ (IsIndexed i ∧ c.N ≤ p.opa.toNat) ∧
      ∃ e' r, step ⟨c, e⟩ = .next ⟨c, e'⟩ ∧ e'.responses = e.responses ++ [r] ∧ r.status = .ok) := by
  cases hd : decode c.R p.cw with
  | error why => exact .inl ⟨why, rfl, step_illegal e h hd⟩
  | ok i =>
    rw [step_command e h hd]
    by_cases hout : IsIndexed i ∧ c.N ≤ p.opa.toNat
    · obtain ⟨hi, hN⟩ := hout
      exact .inr (.inl ⟨i, rfl, hi, hN, exec_indexed_of_le (e.accept p rest) hi hN⟩)
    · exact .inr (.inr ⟨i, rfl, hout, exec_ok_of_not_outOfRange (e.accept p rest) hout⟩)

end

/-! ## What a failing command leaves (R206, R211) -/

/-- Settles O5: the step on an illegal word is `Engine.fail` of the engine that accepted the packet. -/
theorem illegalWordIsNotExecuted : Obligations.IllegalWordIsNotExecuted :=
  fun _ e p rest _ h hd => ⟨_, step_illegal e h hd, rfl, fail_failedWith (e.accept p rest) .illegalCommand⟩

/-- Settles O47: both ways to fail are `Engine.fail`, and every other command answers OK. -/
theorem failedCommandWritesNoRegister : Obligations.FailedCommandWritesNoRegister := by
  intro c e p rest h
  obtain ⟨-, -, hs⟩ | ⟨-, -, -, -, hs⟩ | ⟨-, -, -, e', r, hs, hresp, hr⟩ := step_packet_cases e h
  · exact ⟨_, _, hs, rfl, fun _ => fail_failedWith (e.accept p rest) .illegalCommand⟩
  · exact ⟨_, _, hs, rfl, fun _ => fail_failedWith (e.accept p rest) .indexOutOfRange⟩
  · exact ⟨e', r, hs, hresp, fun hne => absurd hr hne⟩

/-! ## The status code (R200, R204, R210) -/

/-- Settles O46: the three cases of `step_packet_cases` exclude each other, and each fixes the code. -/
theorem statusCodeOfEveryCommand : Obligations.StatusCodeOfEveryCommand := by
  intro c e p rest h
  obtain ⟨why, hd, hs⟩ | ⟨i, hd, hi, hN, hs⟩ | ⟨i, hd, hin, e', r, hs, hresp, hr⟩ := step_packet_cases e h
  · refine ⟨_, _, hs, rfl, iff_of_true rfl ⟨why, hd⟩, iff_of_false nofun ?_, nofun,
      fun _ => statusErr_setErr _ _, nofun, rfl, rfl, rfl, rfl⟩
    simp [hd]
  · refine ⟨_, _, hs, rfl, iff_of_false nofun ?_, iff_of_true rfl ⟨hN, i, hd, hi⟩, nofun,
      fun _ => statusErr_setErr _ _, nofun, rfl, rfl, rfl, rfl⟩
    simp [hd]
  · refine ⟨e', r, hs, hresp, iff_of_false ?_ ?_, iff_of_false ?_ ?_, ?_, fun hne => absurd hr hne, fun _ => hr,
      rfl, rfl, rfl, rfl⟩
    · simp [hr]
    · simp [hd]
    · simp [hr]
    · rintro ⟨hN, j, hj, hindexed⟩
      obtain rfl : i = j := by simpa [hd] using hj
      exact hin ⟨hindexed, hN⟩
    · simp [hr]

end Sys2Proof.Machine
end

section
/-! Proofs of the statements about decoding and encoding (30_encoding.md R61, R75, R82). -/

namespace Sys2Proof

/-! ## The round trips (R61, R75) -/

/-- A field that is used, or is encoded by its default. -/
theorem isSome_or_getD_zero (f : Option RegIdx) : (f.isSome || f.getD 0 == 0) = true := by cases f <;> rfl

theorem isSome_or_not_getD_false (f : Option Bool) : (f.isSome || !f.getD false) = true := by cases f <;> rfl

theorem unusedFieldsZero_encode (i : Instr) : unusedFieldsZero (encode i) i = true := by
  simp only [unusedFieldsZero, encode, rdOf_packWord, raOf_packWord, rbOf_packWord, vOf_packWord, isSome_or_getD_zero,
    isSome_or_not_getD_false, Bool.and_self]

/-- Settles O11: the encoded word has the command's opcode and fields and 0 everywhere else, so it passes the four
tests. -/
theorem decodeOfEncodeIsTheCommand : Obligations.DecodeOfEncodeIsTheCommand := by
  intro R i hw
  refine decode_of_commandOf ?_ (reservedOf_packWord ..) (unusedFieldsZero_encode i) hw
  simpa [encode] using commandOf_opcode i

/-- Settles O12: the word is the packing of its fields, and the command has those fields. -/
theorem encodeOfDecodeIsTheWord : Obligations.EncodeOfDecodeIsTheWord := by
  intro R cw i hd
  obtain ⟨-, -, -, hw⟩ := decode_ok hd
  obtain ⟨hop, hrd, hra, hrb, hv, hr⟩ := decode_ok_fields hd
  refine ⟨hw, ?_⟩
  rw [encode, hop, hrd, hra, hrb, hv, packWord_fields cw hr]

/-! ## The illegal words (R75) -/

theorem exists_decode_error_iff (R : Nat) (cw : BitVec 32) :
    (∃ why, decode R cw = .error why) ↔ ¬ ∃ i, decode R cw = .ok i := by
  cases decode R cw <;> simp

theorem row_mem_opcodeTable (i : Instr) : i.row ∈ opcodeTable := by cases i <;> simp [opcodeTable, Instr.row]

/-- The opcode determines the row. -/
theorem row_eq_of_opcode_eq {i j : Instr} (h : i.opcode = j.opcode) : i.row = j.row := by
  obtain ⟨k, hk, hrow⟩ := exists_commandOf_opcode j (i.rd?.getD 0) (i.ra?.getD 0) (i.rb?.getD 0) (i.v?.getD false)
  rw [← h, commandOf_opcode] at hk
  cases hk
  exact hrow

/-- The table has one row for the opcode of a command. -/
theorem mem_opcodeTable_and_opcode_iff (j : Instr) (row : Row) :
    (row ∈ opcodeTable ∧ opcodeOf row.pattern = j.opcode) ↔ row = j.row := by
  constructor
  · rintro ⟨hmem, hop⟩
    obtain ⟨i, rfl⟩ := exists_row_eq_of_mem_opcodeTable hmem
    obtain ⟨-, hpat, -⟩ := row_mask_fields i
    exact row_eq_of_opcode_eq (hpat.symm.trans hop)
  · rintro rfl
    obtain ⟨-, hpat, -⟩ := row_mask_fields j
    exact ⟨row_mem_opcodeTable j, hpat⟩

/-- What the table says of the row an opcode selects, said of that row. -/
theorem exists_row_of_opcode_iff (j : Instr) (P : Row → Prop) :
    (∃ row ∈ opcodeTable, opcodeOf row.pattern = j.opcode ∧ P row) ↔ P j.row := by
  simp only [← and_assoc, mem_opcodeTable_and_opcode_iff, exists_eq_left]

/-- Condition 3 of R75, by the columns of a row. -/
def Row.UnusedFieldSet (row : Row) (cw : BitVec 32) : Prop :=
  (row.usesRd = false ∧ rdOf cw ≠ 0) ∨ (row.usesRa = false ∧ raOf cw ≠ 0) ∨
    (row.usesRb = false ∧ rbOf cw ≠ 0) ∨ (row.usesV = false ∧ vOf cw = true)

/-- Condition 4 of R75, by the columns of a row. -/
def Row.AbsentRegister (R : Nat) (row : Row) (cw : BitVec 32) : Prop :=
  (row.usesRd = true ∧ R ≤ (rdOf cw).toNat) ∨ (row.usesRa = true ∧ R ≤ (raOf cw).toNat) ∨
    (row.usesRb = true ∧ R ≤ (rbOf cw).toNat)

theorem not_unusedFieldSet_iff (row : Row) (cw : BitVec 32) : ¬ row.UnusedFieldSet cw ↔
    (row.usesRd = true ∨ rdOf cw = 0) ∧ (row.usesRa = true ∨ raOf cw = 0) ∧
      (row.usesRb = true ∨ rbOf cw = 0) ∧ (row.usesV = true ∨ vOf cw = false) := by
  simp only [Row.UnusedFieldSet, not_or, not_and_or, Bool.not_eq_false, Bool.not_eq_true, ne_eq, not_not]

theorem not_absentRegister_iff (R : Nat) (row : Row) (cw : BitVec 32) : ¬ row.AbsentRegister R cw ↔
    (row.usesRd = true → (rdOf cw).toNat < R) ∧ (row.usesRa = true → (raOf cw).toNat < R) ∧
      (row.usesRb = true → (rbOf cw).toNat < R) := by
  simp only [Row.AbsentRegister, not_or, not_and, Nat.not_le]

/-- A word whose opcode is that of `j` decodes exactly when it passes the other three tests by the columns of that
row. -/
theorem exists_decode_of_opcode_iff (R : Nat) {cw : BitVec 32} {j : Instr} (h : opcodeOf cw = j.opcode) :
    (∃ i, decode R cw = .ok i) ↔
      reservedOf cw = 0 ∧ ¬ j.row.UnusedFieldSet cw ∧ ¬ j.row.AbsentRegister R cw := by
  have hrow : (∃ i, decode R cw = .ok i) ↔ ∃ i, decode R cw = .ok i ∧ i.row = j.row := by
    refine exists_congr fun i => (and_iff_left_of_imp fun hd => ?_).symm
    obtain ⟨hop, -⟩ := decode_ok_fields hd
    exact row_eq_of_opcode_eq (hop.trans h)
  rw [hrow, exists_decode_of_row_iff, and_mask_eq_pattern, not_unusedFieldSet_iff, not_absentRegister_iff]
  constructor
  · rintro ⟨⟨-, hrd, hra, hrb, hv, hr⟩, hlt⟩
    exact ⟨hr, ⟨hrd, hra, hrb, hv⟩, hlt⟩
  · rintro ⟨hr, ⟨hrd, hra, hrb, hv⟩, hlt⟩
    exact ⟨⟨h, hrd, hra, hrb, hv, hr⟩, hlt⟩

/-- A word whose opcode names no command does not decode. -/
theorem not_exists_decode_of_opcode_ne (R : Nat) {cw : BitVec 32} (h : ∀ j : Instr, opcodeOf cw ≠ j.opcode) :
    ¬ ∃ i, decode R cw = .ok i := by
  rintro ⟨i, hd⟩
  obtain ⟨hop, -⟩ := decode_ok_fields hd
  exact h i hop.symm

/-- Condition 1 of R75 is that the opcode is of no command. -/
theorem forall_row_opcode_ne_iff (op : BitVec 8) :
    (∀ row ∈ opcodeTable, opcodeOf row.pattern ≠ op) ↔ ∀ j : Instr, op ≠ j.opcode := by
  constructor
  · rintro h j rfl
    obtain ⟨hmem, hop⟩ := (mem_opcodeTable_and_opcode_iff j j.row).2 rfl
    exact h _ hmem hop
  · rintro h row hmem rfl
    obtain ⟨j, rfl⟩ := exists_row_eq_of_mem_opcodeTable hmem
    obtain ⟨-, hpat, -⟩ := row_mask_fields j
    exact h j hpat

/-- The four conditions of R75, each through the row its opcode selects. -/
theorem exists_decode_error_iff_conditions (R : Nat) (cw : BitVec 32) :
    (∃ why, decode R cw = .error why) ↔
      (∀ row ∈ opcodeTable, opcodeOf row.pattern ≠ opcodeOf cw) ∨ reservedOf cw ≠ 0 ∨
        (∃ row ∈ opcodeTable, opcodeOf row.pattern = opcodeOf cw ∧ row.UnusedFieldSet cw) ∨
        ∃ row ∈ opcodeTable, opcodeOf row.pattern = opcodeOf cw ∧ row.AbsentRegister R cw := by
  rw [exists_decode_error_iff, forall_row_opcode_ne_iff]
  by_cases hj : ∃ j : Instr, opcodeOf cw = j.opcode
  · obtain ⟨j, hj⟩ := hj
    have hknown : ¬ ∀ i : Instr, opcodeOf cw ≠ i.opcode := fun h => h j hj
    rw [or_iff_right hknown, exists_decode_of_opcode_iff R hj, hj, exists_row_of_opcode_iff, exists_row_of_opcode_iff]
    simp only [not_and_or, not_not, ne_eq]
  · rw [not_exists] at hj
    exact iff_of_true (not_exists_decode_of_opcode_ne R hj) (.inl hj)

/-- Settles O14: the statement is the four conditions with the fields of R61 written as bits. -/
theorem wordIsIllegalExactlyOnTheFourConditions : Obligations.WordIsIllegalExactlyOnTheFourConditions :=
  fun R cw => exists_decode_error_iff_conditions R cw

/-! ## The worked encodings (R82) -/

theorem decode_of_encode_eq {R : Nat} {cw : BitVec 32} {i : Instr} (hcw : encode i = cw) (hw : i.wellFormed R = true) :
    decode R cw = .ok i :=
  hcw ▸ decodeOfEncodeIsTheCommand R i hw

/-- Settles O15: each legal word is the encoding of its command, and each illegal one fails the test named. -/
theorem workedEncodingsDecode : Obligations.WorkedEncodingsDecode :=
  ⟨decode_of_encode_eq rfl rfl, decode_of_encode_eq rfl rfl, decode_of_encode_eq rfl rfl, decode_of_encode_eq rfl rfl,
    decode_of_encode_eq rfl rfl, decode_of_encode_eq rfl rfl, decode_of_encode_eq rfl rfl, decode_of_encode_eq rfl rfl,
    decode_of_encode_eq rfl rfl, decode_of_encode_eq rfl rfl, decode_of_encode_eq rfl rfl, rfl, rfl, rfl, rfl⟩

end Sys2Proof
end

section
/-! Proofs of the statements about the frame of a command, the step and the ports (10_state.md R21 to R23, 00_scope.md
R10, 60_exceptions.md R205, 70_reset_and_hazards.md R240). -/

namespace Sys2Proof.Machine

/-! ## The frame of a command (10_state.md R21 to R23) -/

/-- Settles O49: in each of the five ways a command ends, only its destination is written, and STATUS only by a warning,
a failure or CLRST. -/
theorem commandsChangeOnlyTheirDestination : Obligations.CommandsChangeOnlyTheirDestination := by
  intro c e i
  obtain ⟨e', he, hcases⟩ := exec_cases e i
  obtain ⟨rd, b, hrd, rfl⟩ | ⟨rd, b, -, hrd, rfl⟩ | ⟨r, -, -, -, rfl, -⟩ | ⟨-, -, rfl⟩ | ⟨hi, rfl⟩ := hcases
  · exact ⟨_, _, he, rfl, rfl, rfl, fun k hk => Vector.getElem?_setIfInBounds_ne (hk rd hrd).symm, fun _ _ _ => rfl⟩
  · exact ⟨_, _, he, rfl, rfl, rfl, fun k hk => Vector.getElem?_setIfInBounds_ne (hk rd hrd).symm,
      fun _ hwarn => nomatch hwarn⟩
  · exact ⟨_, _, he, rfl, rfl, rfl, fun _ _ => rfl, fun _ _ _ => rfl⟩
  · exact ⟨_, _, he, rfl, rfl, rfl, fun _ _ => rfl, fun hok => nomatch hok⟩
  · exact ⟨_, _, he, rfl, rfl, rfl, fun _ _ => rfl, fun _ _ hne => absurd hi hne⟩

/-! ## The step on what the host presents (00_scope.md R10, 70_reset_and_hazards.md R240) -/

/-- Settles O3. -/
theorem idleStepChangesNothing : Obligations.IdleStepChangesNothing := fun _ e h => step_idle e h

/-- Settles O2: the step is `Engine.resetEvent`, which takes registers and STATUS from the reset state. -/
theorem resetEventRestoresTheResetValues : Obligations.ResetEventRestoresTheResetValues :=
  fun c e rest h => ⟨e.resetEvent rest, step_reset e h, fun _ hr _ hk => reset_regs_getElem c hr hk, rfl, rfl, rfl⟩

/-- Settles O4: the engine the command runs on is `Engine.accept` of the packet. -/
theorem stepRunsTheDecodedCommand : Obligations.StepRunsTheDecodedCommand := fun _ e _ _ _ h hd => step_command e h hd

/-- A whole word is its own 32 low bits. -/
theorem ofWord_toNat (c : Cfg) (w : BitVec 32) : Packet.ofWord c 32 w.toNat = ⟨w, 0, 0, 0, 0⟩ := by
  rw [Packet.ofWord, Nat.mod_eq_of_lt w.isLt, BitVec.ofNat_toNat, BitVec.setWidth_eq]
  rfl

/-- Settles O8: the packet presented is the word with operand parts of zeros, and it is the next input. -/
theorem presentedWordIsTheNextCommand : Obligations.PresentedWordIsTheNextCommand := by
  intro c e w i hd
  rw [State.withFetchWord, ofWord_toNat]
  exact step_command _ rfl hd

/-- Settles O7: a failing step sends the code; a command sends its one response, by its frame. -/
theorem eachCommandGivesOneResponseInOrder : Obligations.EachCommandGivesOneResponseInOrder := by
  intro c e p rest h
  cases hd : decode c.R p.cw with
  | error why => exact ⟨_, _, step_illegal e h hd, rfl, rfl⟩
  | ok i =>
    obtain ⟨e', r, he, -, hinputs, hresp, -⟩ := commandsChangeOnlyTheirDestination c (e.accept p rest) i
    exact ⟨e', r, (step_command e h hd).trans he, hresp, hinputs⟩

/-- Settles O6: an engine with nothing to take idles, the reset event has one outcome, and a packet gives a response. -/
theorem everyStepAnswersANextState : Obligations.EveryStepAnswersANextState := by
  intro c e
  match h : e.inputs with
  | [] => exact ⟨e, step_idle e h⟩
  | .reset :: rest => exact ⟨_, step_reset e h⟩
  | .command p :: rest =>
    obtain ⟨e', -, he, -⟩ := eachCommandGivesOneResponseInOrder c e p rest h
    exact ⟨e', he⟩

end Sys2Proof.Machine
end

section
/-! Proofs of the statements about the invariant (10_state.md R27, R29, 30_encoding.md R66). -/

namespace Sys2Proof.Machine

section
variable {c : Cfg} {e e' : Engine c} {i : Instr}

/-- A STATUS of 0 and one under each of its writers (R27 to R29). -/
theorem statusSound_zero : StatusSound 0 := by
  obtain ⟨-, herr, hres⟩ := statusFields_zero
  exact ⟨hres, .inl herr⟩

theorem StatusSound.setOvf {s : BitVec 8} (h : StatusSound s) : StatusSound (statusSetOvf s) := by
  simpa [StatusSound] using h

theorem StatusSound.clear {s : BitVec 8} (h : StatusSound s) : StatusSound (statusClear s) := by
  obtain ⟨hres, -⟩ := h
  exact ⟨(statusReserved_clear s).trans hres, .inl (statusErr_clear s)⟩

theorem StatusSound.setErr {s : BitVec 8} (h : StatusSound s) {k : StatusCode} (hk : k ≠ .lengthMismatch) :
    StatusSound (statusSetErr k s) := by
  obtain ⟨hres, -⟩ := h
  refine ⟨(statusReserved_setErr k s).trans hres, ?_⟩
  rw [statusErr_setErr]
  cases k with
  | ok => exact .inl rfl
  | indexOutOfRange => exact .inr (.inl rfl)
  | lengthMismatch => exact absurd rfl hk
  | illegalCommand => exact .inr (.inr rfl)

theorem Response.Sound.of_ok {r : Response c} (h : r.status = .ok) : r.Sound :=
  ⟨by simp [h], fun h' => absurd h h'⟩

theorem failure_sound {k : StatusCode} (hk : k ≠ .lengthMismatch) : (failure c k).Sound := ⟨hk, fun _ => rfl⟩

/-- The invariant looks at STATUS and the responses only, so it is kept when both stay sound. -/
theorem Engine.Inv.send (h : e.Inv) {r : Response c} (hr : r.Sound) (hs : StatusSound e'.status)
    (hresp : e'.responses = e.responses ++ [r]) : e'.Inv := by
  obtain ⟨-, hall⟩ := h
  refine ⟨hs, fun q hq => ?_⟩
  rw [hresp, List.mem_append, List.mem_singleton] at hq
  obtain hq | rfl := hq
  · exact hall q hq
  · exact hr

theorem Engine.Inv.fail (h : e.Inv) {k : StatusCode} (hk : k ≠ .lengthMismatch) : (e.fail k).Inv :=
  h.send (failure_sound hk) (h.1.setErr hk) rfl

theorem Engine.Inv.accept (h : e.Inv) (p : Packet c) (rest : List (Input c)) : (e.accept p rest).Inv := h

/-- The reset event keeps the responses sent and puts STATUS to 0. -/
theorem Engine.Inv.resetEvent (h : e.Inv) (rest : List (Input c)) : (e.resetEvent rest).Inv := ⟨statusSound_zero, h.2⟩

/-- Every command keeps the invariant: what it writes in STATUS and what it sends are sound in each way it can end. -/
theorem Engine.Inv.exec (h : e.Inv) (he : exec i ⟨c, e⟩ = .next ⟨c, e'⟩) : e'.Inv := by
  obtain ⟨hstatus, -⟩ := id h
  obtain ⟨d, hd, hcases⟩ := exec_cases e i
  obtain rfl := engine_unique hd he
  obtain ⟨rd, b, -, rfl⟩ | ⟨rd, b, -, -, rfl⟩ | ⟨r, -, hr, -, rfl, -⟩ | ⟨-, -, rfl⟩ | ⟨-, rfl⟩ := hcases
  · exact h.send (.of_ok rfl) hstatus rfl
  · exact h.send (.of_ok rfl) hstatus.setOvf rfl
  · exact h.send (.of_ok hr) hstatus rfl
  · exact h.fail nofun
  · exact h.send (.of_ok rfl) hstatus.clear rfl

/-- Every step keeps it. -/
theorem Engine.Inv.step (h : e.Inv) (he : step ⟨c, e⟩ = .next ⟨c, e'⟩) : e'.Inv := by
  match hin : e.inputs with
  | [] => exact engine_unique (step_idle e hin) he ▸ h
  | .reset :: rest => exact engine_unique (step_reset e hin) he ▸ h.resetEvent rest
  | .command p :: rest =>
    cases hd : decode c.R p.cw with
    | error why => exact engine_unique (step_illegal e hin hd) he ▸ (h.accept p rest).fail nofun
    | ok i => exact (h.accept p rest).exec ((step_command e hin hd).symm.trans he)

end

/-- Settles O9: nothing has been sent and STATUS is 0. -/
theorem invariantHoldsAtReset : Obligations.InvariantHoldsAtReset := by
  have reset (c : Cfg) (hc : c.Legal) : (State.resetWith c).Inv := ⟨hc, statusSound_zero, nofun⟩
  exact ⟨reset, reset cfgA (by decide)⟩

/-- Settles O10: the step answers an engine of the same configuration (O6), and keeps the engine's invariant. -/
theorem stepKeepsTheInvariant : Obligations.StepKeepsTheInvariant := by
  rintro ⟨c, e⟩ t ⟨hc, he⟩ hs
  obtain ⟨e', hs'⟩ := everyStepAnswersANextState c e
  obtain rfl : ⟨c, e'⟩ = t := by simpa using hs'.symm.trans hs
  exact ⟨⟨hc, he.step hs'⟩, rfl⟩

end Sys2Proof.Machine
end

section
/-! Proofs of the statements about what a command leaves in STATUS.ERR, what its response holds, and what a read leaves
(10_state.md R29, 30_encoding.md R66, 20_memory.md R49). -/

namespace Sys2Proof.Machine

/-! ## STATUS.ERR (10_state.md R29) -/

section
variable {c : Cfg} (e : Engine c)

/-- ERR after a command other than CLRST: the code when it fails, as it was when it does not. -/
theorem statusErr_exec {i : Instr} (hi : i ≠ .clrst) : ∃ e' r, exec i ⟨c, e⟩ = .next ⟨c, e'⟩ ∧
    e'.responses = e.responses ++ [r] ∧ (r.status ≠ .ok → statusErr e'.status = r.status.code) ∧
    (r.status = .ok → statusErr e'.status = statusErr e.status) := by
  obtain ⟨e', he, hcases⟩ := exec_cases e i
  obtain ⟨rd, b, -, rfl⟩ | ⟨rd, b, -, -, rfl⟩ | ⟨r, -, hr, -, rfl, -⟩ | ⟨-, -, rfl⟩ | ⟨hclr, -⟩ := hcases
  · exact ⟨_, _, he, rfl, fun hne => absurd rfl hne, fun _ => rfl⟩
  · exact ⟨_, _, he, rfl, fun hne => absurd rfl hne, fun _ => statusErr_setOvf e.status⟩
  · exact ⟨_, _, he, rfl, fun hne => absurd hr hne, fun _ => rfl⟩
  · exact ⟨_, _, he, rfl, fun _ => statusErr_setErr _ _, nofun⟩
  · exact absurd hclr hi

end

/-- Settles O44: an illegal word and a failing command write their code, CLRST clears ERR, and every other command that
ends OK leaves it. -/
theorem errHoldsTheLatestFailure : Obligations.ErrHoldsTheLatestFailure := by
  intro c e p rest h
  cases hd : decode c.R p.cw with
  | error why =>
    exact ⟨_, _, step_illegal e h hd, rfl, fun _ => statusErr_setErr _ _, nofun, nofun, rfl, rfl, rfl⟩
  | ok i =>
    by_cases hi : i = .clrst
    · subst hi
      exact ⟨_, _, (step_command e h hd).trans (exec_clrst _), rfl, fun hne => absurd rfl hne,
        fun _ hne => absurd rfl hne, fun _ => statusErr_clear _, rfl, rfl, rfl⟩
    · obtain ⟨e', r, he, hresp, hfail, hok⟩ := statusErr_exec (e.accept p rest) hi
      exact ⟨e', r, (step_command e h hd).trans he, hresp, hfail, fun hr _ => hok hr,
        fun hclr => absurd (Except.ok.inj hclr) hi, rfl, rfl, rfl⟩

/-! ## The response (30_encoding.md R66) -/

/-- The header of a failure is its code, zero-extended. -/
theorem header_failure (c : Cfg) (k : StatusCode) : (failure c k).header = BitVec.zeroExtend 16 k.code := by
  apply BitVec.eq_of_toNat_eq
  rw [toNat_header, BitVec.toNat_setWidth_of_le (by decide)]
  simp [failure, Order.code]

/-- A field that is not at its default was produced by a command of `i`'s kind, and a failure is the code alone. -/
def Response.ProducedBy {c : Cfg} (i : Instr) (r : Response c) : Prop :=
  (r.warn = true → IsAddition i) ∧ (r.t = true → (∃ ra, i = .get ra) ∨ ∃ ra rb, i = .eq ra rb) ∧
  (r.ord ≠ .equal → ∃ ra rb, i = .cmp ra rb) ∧ (r.sr ≠ 0 → i = .rdst) ∧ (r.rv ≠ 0 → ∃ ra, i = .rdv ra) ∧
  (r.status ≠ .ok → r = failure c r.status)

section
variable {c : Cfg} (e : Engine c) (i : Instr)

/-- A response of one code and nothing else is produced by any command. -/
theorem failure_producedBy (k : StatusCode) : (failure c k).ProducedBy i :=
  ⟨nofun, nofun, fun h => absurd rfl h, fun h => absurd rfl h, fun h => absurd rfl h, fun _ => rfl⟩

theorem exec_producedBy : ∃ e' r, exec i ⟨c, e⟩ = .next ⟨c, e'⟩ ∧ e'.responses = e.responses ++ [r] ∧
    r.ProducedBy i := by
  obtain ⟨e', he, hcases⟩ := exec_cases e i
  obtain ⟨rd, b, -, rfl⟩ | ⟨rd, b, hadd, -, rfl⟩ | ⟨r, -, hr, hwarn, rfl, ht, hord, hsr, hrv⟩ | ⟨-, -, rfl⟩ |
    ⟨-, rfl⟩ := hcases
  · exact ⟨_, _, he, rfl, failure_producedBy i .ok⟩
  · exact ⟨_, _, he, rfl, fun _ => hadd, nofun, fun h => absurd rfl h, fun h => absurd rfl h, fun h => absurd rfl h,
      fun h => absurd rfl h⟩
  · exact ⟨_, r, he, rfl, by simp [hwarn], ht, hord, hsr, hrv, fun h => absurd hr h⟩
  · exact ⟨_, _, he, rfl, failure_producedBy i .indexOutOfRange⟩
  · exact ⟨_, _, he, rfl, failure_producedBy i .ok⟩

end

/-- A failure is sent as the code, zero-extended, and no vector. -/
theorem header_of_failed {c : Cfg} {r : Response c} (h : r = failure c r.status) :
    r.header = BitVec.zeroExtend 16 r.status.code ∧ r.rv = 0 := by
  rw [h]
  exact ⟨header_failure c _, rfl⟩

/-- Settles O48: an illegal word is answered by its code alone, a command by a response of its kind. -/
theorem responseHoldsOnlyWhatTheCommandProduces : Obligations.ResponseHoldsOnlyWhatTheCommandProduces := by
  refine ⟨fun c r => header_fields r, fun c e p rest h => ?_⟩
  cases hd : decode c.R p.cw with
  | error why =>
    exact ⟨_, _, step_illegal e h hd, rfl, nofun, nofun, fun h => absurd rfl h, fun h => absurd rfl h,
      fun h => absurd rfl h, fun _ => header_of_failed (r := failure c .illegalCommand) rfl⟩
  | ok i =>
    obtain ⟨e', r, he, hresp, hwarn, ht, hord, hsr, hrv, hfail⟩ := exec_producedBy (e.accept p rest) i
    simp only [Except.ok.injEq, exists_eq_left']
    exact ⟨e', r, (step_command e h hd).trans he, hresp, hwarn, ht, hord, hsr, hrv,
      fun hne => header_of_failed (hfail hne)⟩

/-! ## Reads (20_memory.md R49) -/

/-- Command `i` writes no register and of STATUS at most ERR, by failing; repeated, it answers the same. -/
def RepeatsOn {c : Cfg} (e : Engine c) (i : Instr) : Prop :=
  ∃ e' e'' r, exec i ⟨c, e⟩ = .next ⟨c, e'⟩ ∧ exec i ⟨c, e'⟩ = .next ⟨c, e''⟩ ∧
    e'.regs = e.regs ∧ statusOvf e'.status = statusOvf e.status ∧
    statusReserved e'.status = statusReserved e.status ∧ (r.status = .ok → e'.status = e.status) ∧
    e'.responses = e.responses ++ [r] ∧ e''.responses = e'.responses ++ [r]

section
variable {c : Cfg} {e : Engine c} {i : Instr}

theorem repeatsOn_of_answered {r : Response c} (h : exec i ⟨c, e⟩ = .next ⟨c, e.answered r⟩)
    (h' : exec i ⟨c, e.answered r⟩ = .next ⟨c, (e.answered r).answered r⟩) : RepeatsOn e i :=
  ⟨_, _, r, h, h', rfl, rfl, rfl, fun _ => rfl, rfl, rfl⟩

theorem repeatsOn_of_fail (h : exec i ⟨c, e⟩ = .next ⟨c, e.fail .indexOutOfRange⟩)
    (h' : exec i ⟨c, e.fail .indexOutOfRange⟩ = .next ⟨c, (e.fail .indexOutOfRange).fail .indexOutOfRange⟩) :
    RepeatsOn e i :=
  ⟨_, _, failure c .indexOutOfRange, h, h', rfl, statusOvf_setErr _ _, statusReserved_setErr _ _, nofun, rfl, rfl⟩

end

/-- Settles O50: a read answers from registers, port and STATUS, which an answer leaves; a GET that fails its index
check fails it again. -/
theorem readsHaveNoSideEffect : Obligations.ReadsHaveNoSideEffect := by
  rintro c e i (⟨ra, rfl⟩ | ⟨ra, rfl⟩ | ⟨ra, rb, rfl⟩ | ⟨ra, rb, rfl⟩ | rfl)
  · obtain hN | hN := Nat.lt_or_ge e.port.opa.toNat c.N
    · exact repeatsOn_of_answered (exec_get_of_lt e ra hN) (exec_get_of_lt _ ra hN)
    · exact repeatsOn_of_fail (exec_get_of_le e ra hN) (exec_get_of_le _ ra hN)
  · exact repeatsOn_of_answered (exec_rdv e ra) (exec_rdv _ ra)
  · exact repeatsOn_of_answered (exec_eq e ra rb) (exec_eq _ ra rb)
  · exact repeatsOn_of_answered (exec_cmp e ra rb) (exec_cmp _ ra rb)
  · exact repeatsOn_of_answered (exec_rdst e) (exec_rdst _)

end Sys2Proof.Machine
end

section
/-! Proofs of the statements about the value of a bitmap (20_memory.md R44, 44_add.md R166, 45_compare.md R170, R171)
and of the laws over several commands (30_encoding.md R71, 41_bit_access.md R122, 42_range_mask.md R135,
43_boolean.md R149). -/

namespace Sys2Proof

/-! ## The value of a bitmap (R44) -/

section
variable {c : Cfg} (b : Bitmap c)

theorem testBit_numeral {i : Nat} (hi : i < c.L * c.W) : b.numeral.testBit i = b.bit i := by
  rw [← val_eq_numeral, testBit_val b hi]

theorem numeral_inj {a b : Bitmap c} : a.numeral = b.numeral ↔ a = b := by
  refine ⟨fun h => val_inj ?_, congrArg _⟩
  rw [val_eq_numeral, val_eq_numeral, h]

end

/-- Settles O19. -/
theorem bitmapIsABigEndianNumber : Obligations.BitmapIsABigEndianNumber :=
  fun _ _ b => ⟨numeral_lt b, fun _ hi => (testBit_numeral b hi).symm, fun _ h => numeral_inj.1 h⟩

/-! ## The boolean operations limb by limb (43_boolean.md R149, 42_range_mask.md R135) -/

section
variable {c : Cfg} (a b : Bitmap c)

theorem lanes_and_comm : a.lanes (· &&& ·) b = b.lanes (· &&& ·) a := by
  refine ext_word fun k hk => ?_
  rw [word_lanes _ a b hk, word_lanes _ b a hk, BitVec.and_comm]

theorem lanes_or_ones : a.lanes (· ||| ·) .ones = .ones := by
  refine ext_word fun k hk => ?_
  rw [word_lanes _ a _ hk, word_ones hk, BitVec.or_allOnes]

theorem lanes_xor_self : a.lanes (· ^^^ ·) a = .zeros := by
  refine ext_word fun k hk => ?_
  rw [word_lanes _ a a hk, word_zeros, BitVec.xor_self]
  rfl

theorem complement_complement : a.complement.complement = a := by
  refine ext_word fun k hk => ?_
  rw [word_complement _ hk, word_complement a hk, BitVec.not_not]

theorem getElem_complement {k : Nat} (hk : k < c.L) : a.complement[k] = ~~~ a[k] := by
  rw [← word_of_lt _ hk, word_complement a hk, word_of_lt a hk]

end

end Sys2Proof

namespace Sys2Proof.Machine

section
variable {c : Cfg} (e : Engine c)

/-- A register that another command did not write reads as before. -/
theorem readReg_wrote_of_ne {r q : RegIdx} (h : r ≠ q) (b : Bitmap c) : (e.wrote r b).readReg q = e.readReg q := by
  rw [← wrote_eq]
  exact (readReg_writeReg e r q b).trans (if_neg fun hr => h hr.1)

end

/-- Settles O31: the false mask is the complement of the true one, whatever the bounds. -/
theorem maskRoundTrip : Obligations.MaskRoundTrip := by
  refine fun c e rd _ => ⟨_, _, exec_mask e rd true, exec_mask e rd false, fun k hk => ?_⟩
  rw [Bitmap.rangeMask, if_pos rfl, Bitmap.rangeMask, if_neg Bool.false_ne_true, getElem_complement _ hk]
  exact ⟨BitVec.or_not_self _, BitVec.and_not_self _⟩

/-- Settles O35: each law is one of the limb-wise laws above, on what the registers hold after the first command. -/
theorem booleanAlgebraLaws : Obligations.BooleanAlgebraLaws := by
  intro c e rd ra rb hd ha _
  refine ⟨?_, ⟨_, exec_full e rd, ?_⟩, ?_, ⟨_, exec_not e rd ra, ?_⟩⟩
  · rw [exec_and, exec_and, lanes_and_comm]
  · rw [← readReg_present _ rd hd, exec_or, readReg_wrote_self e hd, lanes_or_ones]
  · rw [exec_xor, exec_zero, lanes_xor_self]
  · rw [exec_not, readReg_wrote_self e hd, complement_complement, readReg_present e ra ha]

/-- Settles O34: each in-place form has the meaning of the other form with `rd` as its source. -/
theorem inPlaceFormsEqualTheirValueReturningForms : Obligations.InPlaceFormsEqualTheirValueReturningForms :=
  fun s rd rb =>
    ⟨exec_anda_eq_and rd rb s, exec_ora_eq_or rd rb s, exec_xora_eq_xor rd rb s, exec_nota_eq_not rd s, rfl⟩

/-! ## GET after SET (41_bit_access.md R122) -/

/-- Settles O28: both GETs read one register through `Bitmap.bit`, before and after `putBit`. -/
theorem getAfterSetSeesTheBit : Obligations.GetAfterSetSeesTheBit := by
  intro c hc e r v hr hN
  refine ⟨_, exec_set_of_lt e r v hN, fun p hp => ⟨_, _, exec_get_of_lt _ r hp, exec_get_of_lt _ r hp, ?_⟩⟩
  rw [readReg_withPort, readReg_withPort, readReg_wrote_self e hr,
    bit_putBit hc _ v (hN.trans_le hc.capacity_le) (hp.trans_le hc.capacity_le)]
  exact if_congr BitVec.toNat_inj rfl rfl

/-! ## Addition and comparison by value (44_add.md R166, 45_compare.md R170, R171) -/

/-- An addition writes the sum modulo `2^(L*W)` and warns exactly when it reaches `2^(L*W)`. -/
theorem addResult_rippleAdd_numeral {c : Cfg} (hc : c.Legal) (e : Engine c) (rd : RegIdx) (x : Bitmap c) :
    ∃ y : Bitmap c, y.numeral = (x.numeral + e.port.opw.toNat) % 2 ^ (c.L * c.W) ∧
      addResult rd ⟨c, e⟩ (rippleAdd x e.port.opw) = .next ⟨c,
        if 2 ^ (c.L * c.W) ≤ x.numeral + e.port.opw.toNat then e.wroteWithWarning rd y else e.wrote rd y⟩ := by
  obtain ⟨hsum, hcarry⟩ := rippleAdd_numeral hc x e.port.opw
  refine ⟨(rippleAdd x e.port.opw).1, hsum, ?_⟩
  rw [addResult_eq, if_congr hcarry rfl rfl]

/-- Settles O37: ADD adds to what `ra` stores and ADDA to what `rd` stores. -/
theorem additionIsModularWithOverflowWarning : Obligations.AdditionIsModularWithOverflowWarning := by
  intro c hc e rd ra hd ha
  rw [← readReg_present e ra ha, ← readReg_present e rd hd]
  exact ⟨addResult_rippleAdd_numeral hc e rd _, addResult_rippleAdd_numeral hc e rd _⟩

/-- CMP's walk by the values of the bitmaps. -/
theorem compareLimbs_numeral {c : Cfg} (a b : Bitmap c) :
    (compareLimbs a.toList b.toList = .less ↔ a.numeral < b.numeral) ∧
    (compareLimbs a.toList b.toList = .greater ↔ b.numeral < a.numeral) ∧
    (compareLimbs a.toList b.toList = .equal ↔ a.numeral = b.numeral) := by
  rw [← val_eq_numeral, ← val_eq_numeral]
  exact compareLimbs_val _ _ (length_toList_eq a b)

/-- Settles O40: EQ compares the limb lists and CMP the values, and bitmaps of one value have one limb list. -/
theorem comparisonsAgreeWithTheValues : Obligations.ComparisonsAgreeWithTheValues := by
  intro c e ra rb ha hb
  rw [← readReg_present e ra ha, ← readReg_present e rb hb]
  obtain ⟨hless, hgreater, hequal⟩ := compareLimbs_numeral (e.readReg ra) (e.readReg rb)
  have heq : decide ((e.readReg ra).toList = (e.readReg rb).toList) = true ↔
      (e.readReg ra).numeral = (e.readReg rb).numeral := by
    rw [decide_eq_true_iff, Vector.toList_inj, numeral_inj]
  exact ⟨_, _, exec_eq e ra rb, exec_cmp e ra rb, heq, hequal.trans heq.symm, hless, hgreater⟩

end Sys2Proof.Machine
end

section
/-! Proofs of the statements about the padding bits (10_state.md R26, 70_reset_and_hazards.md R246). -/

namespace Sys2Proof.Machine

/-- After command `i`, bit `j` of register `d` is `bit`. -/
def LeavesBit {c : Cfg} (e : Engine c) (d : RegIdx) (j : Nat) (i : Instr) (bit : Bool) : Prop :=
  ∃ e' x, exec i ⟨c, e⟩ = .next ⟨c, e'⟩ ∧ e'.regs[d.toNat]? = some x ∧ x.bit j = bit

section
variable {c : Cfg} {e : Engine c} {d : RegIdx} {j : Nat} {i : Instr} {bit : Bool}

/-- A register the engine has, looked up in its vector. -/
theorem getElem?_regs_of_readReg (e : Engine c) (hd : d.toNat < c.R) : e.regs[d.toNat]? = some (e.readReg d) := by
  rw [readReg_present e d hd, Vector.getElem?_eq_getElem hd]

theorem leavesBit_of_next {e' : Engine c} (hd : d.toNat < c.R) (h : exec i ⟨c, e⟩ = .next ⟨c, e'⟩)
    (hbit : (e'.readReg d).bit j = bit) : LeavesBit e d j i bit :=
  ⟨e', _, h, getElem?_regs_of_readReg e' hd, hbit⟩

/-- A command that writes `b` leaves the bits of `b`. -/
theorem leavesBit_of_wrote {b : Bitmap c} (hd : d.toNat < c.R) (h : exec i ⟨c, e⟩ = .next ⟨c, e.wrote d b⟩)
    (hbit : b.bit j = bit) : LeavesBit e d j i bit :=
  leavesBit_of_next hd h ((congrArg (·.bit j) (readReg_wrote_self e hd b)).trans hbit)

/-- A failing command leaves the bits that were there. -/
theorem leavesBit_of_fail {k : StatusCode} (hd : d.toNat < c.R) (h : exec i ⟨c, e⟩ = .next ⟨c, e.fail k⟩) :
    LeavesBit e d j i ((e.readReg d).bit j) :=
  leavesBit_of_next hd h rfl

/-- An addition to `x` leaves the bits of the sum modulo `2^(L*W)`, with the warning and without. -/
theorem leavesBit_of_addResult (hc : c.Legal) (hd : d.toNat < c.R) (hj : j < c.L * c.W) (x : Bitmap c)
    (h : exec i ⟨c, e⟩ = addResult d ⟨c, e⟩ (rippleAdd x e.port.opw)) :
    LeavesBit e d j i (((x.numeral + e.port.opw.toNat) % 2 ^ (c.L * c.W)).testBit j) := by
  obtain ⟨y, hy, hnext⟩ := addResult_rippleAdd_numeral hc e d x
  have hbit : y.bit j = ((x.numeral + e.port.opw.toNat) % 2 ^ (c.L * c.W)).testBit j := by
    rw [← hy, testBit_numeral y hj]
  have hself : (e.wrote d y).readReg d = y := readReg_wrote_self e hd y
  refine leavesBit_of_next hd (h.trans hnext) ?_
  rw [← hbit]
  split
  · exact congrArg (·.bit j) hself
  · exact congrArg (·.bit j) hself

/-- Bit `j` after SET of another bit, or after a SET that fails. -/
theorem leavesBit_set (hc : c.Legal) (hd : d.toNat < c.R) (v : Bool) (hN : c.N ≤ j) (hj : j < c.L * c.W) :
    LeavesBit e d j (.set d v) ((e.readReg d).bit j) := by
  obtain hlt | hle := Nat.lt_or_ge e.port.opa.toNat c.N
  · refine leavesBit_of_wrote hd (exec_set_of_lt e d v hlt) ?_
    rw [bit_putBit hc _ v (hlt.trans_le hc.capacity_le) hj, if_neg (by omega)]
  · exact leavesBit_of_fail hd (exec_set_of_le e d v hle)

/-- FROMBIT below the capacity clears every padding bit. -/
theorem leavesBit_frombit (hc : c.Legal) (hd : d.toNat < c.R) (hN : c.N ≤ j) (hj : j < c.L * c.W)
    (hlt : e.port.opa.toNat < c.N) : LeavesBit e d j (.frombit d) false := by
  refine leavesBit_of_wrote hd (exec_frombit_of_lt e d hlt) ?_
  rw [single_eq_putBit, bit_putBit hc _ true (hlt.trans_le hc.capacity_le) hj, if_neg (by omega), bit_zeros]

end

/-- What NEW writes (40_construct.md R102). -/
theorem bit_newValue {c : Cfg} (hc : c.Legal) (v : Bool) (j : Nat) :
    (if v then .ones else .zeros : Bitmap c).bit j = v := by
  cases v with
  | true => exact bit_ones hc j
  | false => exact bit_zeros j

/-- A padding bit is in no range. -/
theorem not_mem_range_of_padding {c : Cfg} (first last : Nat) {j : Nat} (hN : c.N ≤ j) :
    ¬ (first ≤ j ∧ j < min last c.N) := by
  omega

/-- Settles O51: one rule for each row of R26, by the bits of what the command writes; an in-place form is its
value-returning form. -/
theorem paddingBitsAfterEachCommand : Obligations.PaddingBitsAfterEachCommand := by
  intro c hc e d a b v hd ha hb j hN hj
  simp only [← readReg_present e d hd, ← readReg_present e a ha, ← readReg_present e b hb]
  refine ⟨leavesBit_of_wrote hd (exec_zero e d) (bit_zeros j), leavesBit_of_wrote hd (exec_full e d) (bit_ones hc j),
    leavesBit_of_wrote hd (exec_new e d v) (bit_newValue hc v j),
    leavesBit_of_wrote hd (exec_ldv e d) (bit_ofPort hc _ hj), leavesBit_of_wrote hd (exec_copy e d a) rfl,
    leavesBit_frombit hc hd hN hj, fun hle => leavesBit_of_fail hd (exec_frombit_of_le e d hle),
    leavesBit_set hc hd v hN hj, leavesBit_of_wrote hd (exec_mask e d v) ?_,
    leavesBit_of_wrote hd (exec_setrange e d v) ?_,
    leavesBit_of_wrote hd (exec_and e d a b) (bit_and hc _ _ j),
    leavesBit_of_wrote hd (exec_or e d a b) (bit_or hc _ _ j),
    leavesBit_of_wrote hd (exec_xor e d a b) (bit_xor hc _ _ j),
    leavesBit_of_wrote hd (exec_anda e d b) (bit_and hc _ _ j),
    leavesBit_of_wrote hd (exec_ora e d b) (bit_or hc _ _ j),
    leavesBit_of_wrote hd (exec_xora e d b) (bit_xor hc _ _ j),
    leavesBit_of_wrote hd (exec_not e d a) (bit_complement hc _ j),
    leavesBit_of_wrote hd (exec_nota e d) (bit_complement hc _ j),
    leavesBit_of_addResult hc hd hj _ rfl, leavesBit_of_addResult hc hd hj _ rfl⟩
  · rw [bit_rangeMask hc _ _ v hj, if_neg (not_mem_range_of_padding _ _ hN)]
  · rw [bit_applyRangeMask hc _ _ _ v hj, if_neg (not_mem_range_of_padding _ _ hN)]

/-- The mask of `[0, N)` holds the logical bits. -/
theorem bit_logicalMask {c : Cfg} (hc : c.Legal) {j : Nat} (hj : j < c.L * c.W) :
    (Bitmap.rangeMask 0 c.N true : Bitmap c).bit j = decide (j < c.N) := by
  rw [bit_rangeMask hc 0 c.N true hj]
  by_cases h : j < c.N <;> simp [h]

/-- Settles O52: MASK leaves the complement NOT wrote in `d`, because `t` is another register, and ANDA takes both. -/
theorem hostRestoresPaddingAfterNot : Obligations.HostRestoresPaddingAfterNot := by
  intro c hc e d t a hd ht ha p hdt hbegin hend
  refine ⟨_, _, _, _, exec_not e d a, exec_mask _ t true, exec_anda _ d t, getElem?_regs_of_readReg _ hd,
    fun j hj => ?_⟩
  rw [readReg_wrote_self _ hd, bit_and hc, readReg_wrote_self _ ht, readReg_wrote_of_ne _ hdt.symm, readReg_withPort,
    readReg_wrote_self e hd, bit_complement hc, readReg_present e a ha, hbegin, hend, bit_logicalMask hc hj,
    Bool.and_comm]

end Sys2Proof.Machine
end
